-- ==== Sys2Proof/Word.lean ====
section
/-! DEFINITION. The word types of the codec: bytes on the wire and in memory, 16-bit lengths, 32-bit versions and
command words (00_scope.md R9; 10_state.md R28, R29). -/

namespace Sys2Proof

/-- A byte of the wire format, of caller memory, or a queue identifier (00_scope.md R9). -/
abbrev Byte := BitVec 8

/-- A 16-bit quantity: payload length, capacity, offset, completed frame length (00_scope.md R8, R9). -/
abbrev Half := BitVec 16

/-- A 32-bit quantity: a protocol version or a `CMD` word (10_state.md R28). An `ADDR_W`-bit quantity (an address, a chunk
length, a count of consumed bytes) is a natural below `2^ADDR_W`, because `ADDR_W` is a parameter (00_scope.md R8). -/
abbrev Word := BitVec 32

end Sys2Proof
end

