-- ==== Sys2Proof/Config.lean ====
section
/-! DEFINITION. The codec's fixed constants (00_scope.md R6) and its parameters (R7, R8; 20_memory.md R45), the
parameters as plain data so that a claim can quantify over them. -/

namespace Sys2Proof.Config

/-- `HDR_LEN` (R6). -/
def hdrLen : Nat := 8
/-- `FTR_LEN` (R6). -/
def ftrLen : Nat := 2
/-- `QID_LEN` (R6). -/
def qidLen : Nat := 2
/-- `PRE_BYTE` (R6). -/
def preByte : Byte := 0xAA#8
/-- `FTR_BYTE` (R6). -/
def ftrByte : Byte := 0x55#8
/-- `PFX_ZERO` (R6). -/
def pfxZero : Byte := 0x00#8
/-- `VER_W`, the width of the protocol-version field (R8, decision D15). -/
def verW : Nat := 19

/-- What a byte of caller memory reads as when nothing has written it. DESIGN CHOICE (log 2), unsafe: the spec gives
caller memory no contents; 0 is the value its own programs start from (95_test_vectors.md section 7). -/
def unlistedByte : Byte := 0#8

/-- The kind of an access in `MemAdmit(a, kind)` (20_memory.md R45). -/
inductive AccessKind where
  | read
  | write
  deriving DecidableEq, Repr

/-- A region of caller memory: `size` bytes from `base`, with the kinds of access it admits (20_memory.md R45). -/
structure Region where
  base : Nat
  size : Nat
  readable : Bool
  writable : Bool
  deriving DecidableEq, Repr

/-- The parameters of one codec instance: `ADDR_W`, the width of caller-memory addresses, of the chunk length and of the
count of consumed bytes (R8, decisions D5, D8; log 13), `ETH_MIN_LEN` (R7), and the map behind `MemAdmit` (20_memory.md R45). -/
structure Platform where
  addrW : Nat
  ethMinLen : Nat
  regions : List Region
  deriving DecidableEq, Repr

/-- What an `ADDR_W`-bit register or address holds of a value: its low `ADDR_W` bits (log 13). -/
def Platform.addrBits (p : Platform) (v : Nat) : Nat := v % 2 ^ p.addrW

/-- This configuration: `ADDR_W = 32` (R8), `ETH_MIN_LEN = 60` (R7), and the memory map every vector and program of 95_test_vectors.md
uses, `MemAdmit(a, _) = (a < 0x10000)`. The map at reset is a DESIGN CHOICE (log 3), unsafe; every claim but those
about `State.reset` quantifies over the map. -/
def thisPlatform : Platform where
  addrW := 32
  ethMinLen := 60
  regions := [{ base := 0, size := 0x10000, readable := true, writable := true }]

end Sys2Proof.Config
end

