-- ==== Sys2Proof/Syntax.lean ====
section
/-! DEFINITION. The commands of the codec, one constructor per row of spec/opcode_table.json (30_encoding.md R70).
A command carries no operand: "There are no immediates: every operand is a whole register" (R71). -/

namespace Sys2Proof

/-- The five commands (00_scope.md R3, 30_encoding.md R70). -/
inductive Instr where
  /-- `CREATE_HEADER buf, len, ver` (40_encoder.md R80), format H. -/
  | createHeader
  /-- `CREATE_FOOTER buf` (40_encoder.md R81), format B. -/
  | createFooter
  /-- `ADD_QID buf, qid` (40_encoder.md R82), format Q. -/
  | addQid
  /-- `INIT_DECODER` (41_decoder.md R100), format N. -/
  | initDecoder
  /-- `DECODE out, cap, in, inlen` (41_decoder.md R101), format D. -/
  | decode
  deriving DecidableEq, Repr

/-- The opcode column of 30_encoding.md R70. -/
def Instr.op : Instr → BitVec 3
  | .createHeader => 0b001#3
  | .createFooter => 0b010#3
  | .addQid => 0b011#3
  | .initDecoder => 0b100#3
  | .decode => 0b101#3

end Sys2Proof
end

