-- ==== Sys2Proof/WellFormed.lean ====
section
/-! DEFINITION. What makes a `CMD` word a legal command (30_encoding.md R72) and a set of parameters a legal
configuration (00_scope.md R7). -/

namespace Sys2Proof

/-- `OP = CMD[2:0]` (10_state.md R28). -/
def cmdOp (w : Word) : BitVec 3 := w.extractLsb' 0 3

/-- `CMD[31:3]`, reserved (10_state.md R28). -/
def cmdReserved (w : Word) : BitVec 29 := w.extractLsb' 3 29

/-- The reserved bits are zero (30_encoding.md R72). -/
def cmdReservedClear (w : Word) : Bool := cmdReserved w == 0#29

/-- `OP` is one of 1 to 5; 0, 6 and 7 are reserved (30_encoding.md R70, R72). -/
def cmdOpLegal (w : Word) : Bool := decide (1 ≤ (cmdOp w).toNat ∧ (cmdOp w).toNat ≤ 5)

/-- A legal `CMD` word: both checks of 30_encoding.md R72 pass. -/
def CmdWellFormed (w : Word) : Bool := cmdReservedClear w && cmdOpLegal w

/-- The `CMD` word that issues a command: `OP` in bits 2..0 and 0 in bits 31..3 (30_encoding.md R75). -/
def Instr.cmdWord (i : Instr) : Word := 0#29 ++ i.op

/-- A command is well formed when its `CMD` word is legal. A command has no field, so every one is. -/
def Instr.WellFormed (i : Instr) : Bool := CmdWellFormed i.cmdWord

/-- `1 <= ETH_MIN_LEN <= 65535` (00_scope.md R7). -/
def Config.Platform.WellFormed (p : Config.Platform) : Bool := decide (1 ≤ p.ethMinLen ∧ p.ethMinLen ≤ 65535)

end Sys2Proof
end

