-- ==== Sys2Proof/Decode.lean ====
section
/-! DEFINITION. Decoding a `CMD` word into a command, total on every 32-bit word, and encoding a command
(30_encoding.md R70, R72). -/

namespace Sys2Proof

/-- Why a `CMD` word is illegal; both reasons raise `ILLEGAL_CMD` (30_encoding.md R72). -/
inductive DecodeError where
  /-- `CMD[31:3] != 0`. -/
  | reservedBits
  /-- `OP` is 0, 6 or 7. -/
  | reservedOp
  deriving DecidableEq, Repr

/-- The command a `CMD` word selects (30_encoding.md R70), or the reason it is illegal (R72). -/
def decode (w : Word) : Except DecodeError Instr :=
  if cmdReserved w = 0#29 then
    match (cmdOp w).toNat with
    | 1 => .ok .createHeader
    | 2 => .ok .createFooter
    | 3 => .ok .addQid
    | 4 => .ok .initDecoder
    | 5 => .ok .decode
    | _ => .error .reservedOp
  else .error .reservedBits

/-- The `CMD` words of 95_test_vectors.md section 7, from the `OP` column of 30_encoding.md R70. -/
def encode : Instr → Word
  | .createHeader => 0x00000001#32
  | .createFooter => 0x00000002#32
  | .addQid => 0x00000003#32
  | .initDecoder => 0x00000004#32
  | .decode => 0x00000005#32

/-- The command read from an opcode-table word of `nbits` bits, all higher bits 0. `CMD` is one 32-bit register
(10_state.md R28), so the table's bit numbers are the register's; a word that does not fit it is no command. -/
def decodeTableWord (nbits w : Nat) : Option Instr :=
  let v := w % 2 ^ nbits
  if v < 2 ^ 32 then (decode (BitVec.ofNat 32 v)).toOption else none

/-- Each command's word, written out bit by bit from its row's `encoding`, decodes to it. -/
theorem decode_createHeader : decode 0b00000000000000000000000000000001#32 = .ok .createHeader := by decide
theorem decode_createFooter : decode 0b00000000000000000000000000000010#32 = .ok .createFooter := by decide
theorem decode_addQid : decode 0b00000000000000000000000000000011#32 = .ok .addQid := by decide
theorem decode_initDecoder : decode 0b00000000000000000000000000000100#32 = .ok .initDecoder := by decide
theorem decode_decode : decode 0b00000000000000000000000000000101#32 = .ok .decode := by decide

end Sys2Proof
end

