-- ==== Sys2Proof/Machine/State.lean ====
section
/-! DEFINITION. The state of the codec and its host, all of it plain data (10_state.md), the reasons a step can stop,
and the state after power-on reset (R34, 70_reset_and_hazards.md R160). -/

namespace Sys2Proof.Machine

/-- The contents of a register that may be unwritten. "A register that has not been written since power-on reset has
no value ... The model must not supply 0" (10_state.md R31): `unwritten` is the spec's own reset value (R34; log 1). -/
inductive Reg (α : Type) where
  | unwritten
  | written (v : α)
  deriving DecidableEq, Repr

/-- The sixteen values of `STATE`, in the order of their tags (10_state.md R23). -/
inductive DecoderState where
  /-- Initial state: first reserved length-prefix byte, must be 0x00. -/
  | pfx0
  /-- Second reserved length-prefix byte, must be 0x00. -/
  | pfx1
  /-- First skipped byte. -/
  | pfx2
  /-- Second skipped byte. -/
  | pfx3
  /-- Preamble byte 1. -/
  | aa1
  /-- Preamble byte 2. -/
  | aa2
  /-- Preamble byte 3. -/
  | aa3
  /-- Preamble byte 4. -/
  | aa4
  /-- Length low byte. -/
  | len0
  /-- Length high byte. -/
  | len1
  /-- First reserved byte. -/
  | rsv0
  /-- Second reserved byte, then the length check. -/
  | rsv1
  /-- Payload gathering. -/
  | gath
  /-- First footer byte. -/
  | ft0
  /-- Second footer byte. -/
  | ft1
  /-- Handle not yet initialized. -/
  | uninit
  deriving DecidableEq, Repr

/-- The values of `RES_KIND` the codec produces; 5, 6 and 7 are reserved and never produced
(30_encoding.md R73; log 15). -/
inductive ResultKind where
  /-- Keep gathering: no frame yet. -/
  | gather
  /-- A frame is complete; its length is in `RES_FRAME`. -/
  | frame
  /-- Framing error: header not found. -/
  | noHeader
  /-- Framing error: invalid length. -/
  | invalidLength
  /-- Framing error: no tail found. -/
  | noTail
  deriving DecidableEq, Repr

/-- The eight values of `FAULT` (60_exceptions.md R141). Each but `none` is a precondition fault the codec TAKES: a
next state with `FAULT` holding the cause (R142). -/
inductive FaultCode where
  | none
  | illegalCmd
  | uninit
  | emptyInput
  | versionRange
  | outOfBounds
  | overlap
  | unwrittenArg
  deriving DecidableEq, Repr

/-- A host write of one operand register (10_state.md R28, R32). An `ADDR_W`-bit register takes the value's low `ADDR_W`
bits (log 13). -/
inductive OperandWrite where
  | argBuf (v : Nat)
  | argLen (v : Half)
  | argVer (v : Word)
  | argQid (v : Byte)
  | argIn (v : Nat)
  | argInlen (v : Nat)
  deriving DecidableEq, Repr

/-- A move of the host that changes something (00_scope.md R14; 10_state.md R28, R32). Reads change nothing and are
the function `hostRead`. -/
inductive HostMove where
  /-- Writing `CMD`, which issues the command (10_state.md R28). -/
  | cmd (w : Word)
  /-- Writing an operand register. -/
  | operand (o : OperandWrite)
  /-- Writing a byte of caller memory, which the host owns, at the address's low `ADDR_W` bits (20_memory.md R40;
  logs 9, 13). -/
  | store (a : Nat) (b : Byte)
  /-- Power-on reset (70_reset_and_hazards.md R160; log 14). -/
  | powerOn
  deriving DecidableEq, Repr

/-- Caller memory (20_memory.md R40): addresses strictly rising, no entry equal to `Config.unlistedByte`. -/
abbrev Memory := List Host.Cell

/-- All the state of the codec, caller memory, the parameters of the instance, and the host's moves to come. -/
structure State where
  /-- `STATE` (R23). -/
  decoder : DecoderState
  /-- `LEN` (R24). -/
  len : Reg Half
  /-- `OFFSET` (R25). -/
  offset : Reg Half
  /-- `CMD` (R28). -/
  cmd : Reg Word
  /-- `ARG_BUF`, `ADDR_W` bits (R28; log 13). -/
  argBuf : Reg Nat
  /-- `ARG_LEN` (R28). -/
  argLen : Reg Half
  /-- `ARG_VER` (R28). -/
  argVer : Reg Word
  /-- `ARG_QID` (R28). -/
  argQid : Reg Byte
  /-- `ARG_IN`, `ADDR_W` bits (R28). -/
  argIn : Reg Nat
  /-- `ARG_INLEN`, `ADDR_W` bits (R28). -/
  argInlen : Reg Nat
  /-- `RES_LEN` (R29). -/
  resLen : Reg Half
  /-- `RES_KIND` (R29). -/
  resKind : Reg ResultKind
  /-- `RES_FRAME` (R29). -/
  resFrame : Reg Half
  /-- `RES_CONS`, `ADDR_W` bits (R29). -/
  resCons : Reg Nat
  /-- `FAULT` (R30). -/
  fault : FaultCode
  /-- Caller memory (20_memory.md R40). -/
  mem : Memory
  /-- The parameters `ADDR_W`, `ETH_MIN_LEN` and `MemAdmit` (00_scope.md R7, R8, 20_memory.md R45); no step changes them. -/
  platform : Config.Platform
  /-- The model's own: the host's moves not yet performed, the next one first (log 5). -/
  host : List HostMove
  deriving DecidableEq, Repr

/-- Why the machine stops. -/
inductive Fault where
  /-- Stuck: the command would touch an address `MemAdmit` does not admit, so it has no step and writes nothing
  (20_memory.md R45, 60_exceptions.md R145; log 17). Raised by every command but `INIT_DECODER`. Safe. -/
  | notAdmitted
  deriving DecidableEq, Repr

/-- Why the model refuses a command. -/
inductive Refusal where
  /-- The command has no meaning in this model. Raised by no arm: every command is modelled. Safe. -/
  | notModelled (mnemonic : String)
  deriving DecidableEq, Repr

/-- After power-on reset `STATE` is `UNINIT`, `FAULT` is 0 and every other register is unwritten (10_state.md R34).
Caller memory lists nothing (log 2), the parameters are this configuration's (logs 3, 4, 13) and the host has no move
to make (log 5). -/
def State.reset : State where
  decoder := .uninit
  len := .unwritten
  offset := .unwritten
  cmd := .unwritten
  argBuf := .unwritten
  argLen := .unwritten
  argVer := .unwritten
  argQid := .unwritten
  argIn := .unwritten
  argInlen := .unwritten
  resLen := .unwritten
  resKind := .unwritten
  resFrame := .unwritten
  resCons := .unwritten
  fault := .none
  mem := []
  platform := Config.thisPlatform
  host := []

end Sys2Proof.Machine
end

