-- ==== Sys2Proof/Machine/Ops.lean ====
section
/-! DEFINITION. The operations every command shares: caller memory and its admission (20_memory.md), taking a
precondition fault (60_exceptions.md R142), being stuck (R145), resynchronizing (41_decoder.md R114) and power-on reset
(70_reset_and_hazards.md R160). The codec has no trap return (60_exceptions.md R147). -/

namespace Sys2Proof.Machine

/-- What a command answers. -/
abbrev Answer := Host.Outcome State Fault Refusal

/-! ### Caller memory: single bytes only (20_memory.md R42) -/

/-- `MemRead(a, 1)` (00_scope.md R12). -/
def Memory.read : Memory → Nat → Byte
  | [], _ => Config.unlistedByte
  | c :: m, a => if c.1 = a then c.2 else Memory.read m a

/-- The cells at every address but `a`. -/
def Memory.erase (m : Memory) (a : Nat) : Memory := m.filter fun c => c.1 != a

/-- Put a cell where its address belongs. -/
def Memory.insert : Memory → Nat → Byte → Memory
  | [], a, v => [(a, v)]
  | c :: m, a, v => if a < c.1 then (a, v) :: c :: m else c :: Memory.insert m a v

/-- `MemWrite(a, 1, v)` (00_scope.md R12), keeping the canonical form. -/
def Memory.write (m : Memory) (a : Nat) (v : Byte) : Memory :=
  if v = Config.unlistedByte then Memory.erase m a else Memory.insert (Memory.erase m a) a v

/-- Byte writes at rising addresses from `a`: byte `k` of a buffer at base `B` is at `B + k` (20_memory.md R43). -/
def Memory.writeBytes : Memory → Nat → List Byte → Memory
  | m, _, [] => m
  | m, a, v :: vs => Memory.writeBytes (Memory.write m a v) (a + 1) vs

/-- The byte-by-byte copy of 41_decoder.md R111: `n` bytes from `src` to `dst`, lowest address first. -/
def Memory.copy : Memory → (src dst n : Nat) → Memory
  | m, _, _, 0 => m
  | m, src, dst, n + 1 => Memory.copy (Memory.write m dst (Memory.read m src)) (src + 1) (dst + 1) n

/-- The canonical form: addresses strictly rising, and no cell equal to what an unlisted address reads as. -/
def Memory.wf : Memory → Bool
  | [] => true
  | [c] => c.2 != Config.unlistedByte
  | c :: d :: m => c.2 != Config.unlistedByte && decide (c.1 < d.1) && Memory.wf (d :: m)

/-! ### Admission (20_memory.md R45, R53) -/

/-- A region admits an access of this kind at address `a`. -/
def regionAdmits (a : Nat) (kind : Config.AccessKind) (r : Config.Region) : Bool :=
  decide (r.base ≤ a ∧ a < r.base + r.size) &&
    match kind with
    | .read => r.readable
    | .write => r.writable

/-- `MemAdmit(a, kind)`: some region admits it, and "an address `>= 2^ADDR_W` is never admitted" (R45). -/
def memAdmit (p : Config.Platform) (a : Nat) (kind : Config.AccessKind) : Bool :=
  decide (a < 2 ^ p.addrW) && p.regions.any (regionAdmits a kind)

/-- Every byte of `base .. base + n - 1` is admitted, as unbounded naturals (R45). -/
def memAdmitAll (p : Config.Platform) (kind : Config.AccessKind) (base n : Nat) : Bool :=
  (List.range n).all fun i => memAdmit p (base + i) kind

/-- Go on if every touched address is admitted; else the command is stuck (R45, 60_exceptions.md R145). -/
def whenAdmitted (ok : Bool) (k : Answer) : Answer := if ok then k else .fault .notAdmitted

/-- The ranges `[a, a + n)` and `[b, b + n)` share an address (20_memory.md R52). -/
def rangesMeet (a b n : Nat) : Bool := decide (a < b + n ∧ b < a + n)

/-! ### Precondition faults and the return to the initial state -/

/-- Fault entry (60_exceptions.md R142): `FAULT <- cause` and nothing else. -/
def recordFault (c : FaultCode) (s : State) : State := { s with fault := c }

/-- `raise Fault(<cause>)` (00_scope.md R12): the command ends with the fault taken. -/
def raiseFault (c : FaultCode) (s : State) : Answer := .next (recordFault c s)

/-- `resync()`: `STATE <- PFX0`, with `LEN` and `OFFSET` unchanged (41_decoder.md R114). -/
def resync (s : State) : State := { s with decoder := .pfx0 }

/-- Power-on reset: every register at its value in 10_state.md R34. "Reset does not touch caller memory, which is not
part of the codec" (70_reset_and_hazards.md R160); nor the parameters, nor the host's later moves (log 14). -/
def powerOnReset (s : State) : State :=
  { State.reset with mem := s.mem, platform := s.platform, host := s.host }

end Sys2Proof.Machine
end

