-- ==== Sys2Proof/Machine/Flags.lean ====
section
/-! DEFINITION. "The codec has no flags, condition codes or predicates" (10_state.md R33). The status it has is written
here: the result registers (R29) and the numeric codes of `STATE`, `RES_KIND` and `FAULT` the host reads. -/

namespace Sys2Proof.Machine

/-- The tag of a `STATE` value (10_state.md R23). -/
def stateTag : DecoderState → BitVec 4
  | .pfx0 => 0x0#4
  | .pfx1 => 0x1#4
  | .pfx2 => 0x2#4
  | .pfx3 => 0x3#4
  | .aa1 => 0x4#4
  | .aa2 => 0x5#4
  | .aa3 => 0x6#4
  | .aa4 => 0x7#4
  | .len0 => 0x8#4
  | .len1 => 0x9#4
  | .rsv0 => 0xA#4
  | .rsv1 => 0xB#4
  | .gath => 0xC#4
  | .ft0 => 0xD#4
  | .ft1 => 0xE#4
  | .uninit => 0xF#4

/-- The code of a result kind in `RES_KIND` (30_encoding.md R73). -/
def resultCode : ResultKind → BitVec 3
  | .gather => 0#3
  | .frame => 1#3
  | .noHeader => 2#3
  | .invalidLength => 3#3
  | .noTail => 4#3

/-- The code of a cause in `FAULT` (60_exceptions.md R141). -/
def faultCode : FaultCode → BitVec 3
  | .none => 0#3
  | .illegalCmd => 1#3
  | .uninit => 2#3
  | .emptyInput => 3#3
  | .versionRange => 4#3
  | .outOfBounds => 5#3
  | .overlap => 6#3
  | .unwrittenArg => 7#3

/-- The end of every `DECODE` arm, `return (kind, frame, consumed)` (41_decoder.md R101). -/
def setDecodeResult (kind : ResultKind) (frame : Half) (consumed : Nat) (s : State) : State :=
  { s with resKind := .written kind, resFrame := .written frame, resCons := .written consumed }

/-- The end of every encoder command, `RES_LEN <- n` (30_encoding.md R74). -/
def setEncodeResult (n : Half) (s : State) : State := { s with resLen := .written n }

end Sys2Proof.Machine
end

