-- ==== Sys2Proof/Machine/Operands.lean ====
section
/-! DEFINITION. Reading operand and handle registers (30_encoding.md R71) and the chunk's first byte, and
the host's access to registers (10_state.md R31, R32). -/

namespace Sys2Proof.Machine

/-- Read a register that a command needs: "If a command reads an unwritten operand register, the command faults with
`UNWRITTEN_ARG`" (10_state.md R31). A model that reads an unwritten register of any kind "must fault (10_state.md rule R31)"
(00_scope.md R11), so an unwritten `LEN` or `OFFSET`, which no run reads (10_state.md R34), takes the same fault (log 10). -/
def withRegister {α : Type} (r : Reg α) (s : State) (k : α → Answer) : Answer :=
  match r with
  | .unwritten => raiseFault .unwrittenArg s
  | .written v => k v

/-- The single-byte arms' read: stuck unless `ARG_IN` is admitted, then `b <- MemRead(ARG_IN, 1)` (41_decoder.md R103). -/
def withChunkByte (src : Nat) (s : State) (k : Byte → Answer) : Answer :=
  whenAdmitted (memAdmit s.platform src .read) (k (Memory.read s.mem src))

/-- Perform a host write of an operand register (10_state.md R28, R32). -/
def writeOperand (o : OperandWrite) (s : State) : State :=
  match o with
  | .argBuf v => { s with argBuf := .written (s.platform.addrBits v) }
  | .argLen v => { s with argLen := .written v }
  | .argVer v => { s with argVer := .written v }
  | .argQid v => { s with argQid := .written v }
  | .argIn v => { s with argIn := .written (s.platform.addrBits v) }
  | .argInlen v => { s with argInlen := .written (s.platform.addrBits v) }

/-- The registers the host can read (10_state.md R32). -/
inductive RegName where
  | state | len | offset
  | cmd | argBuf | argLen | argVer | argQid | argIn | argInlen
  | resLen | resKind | resFrame | resCons
  | fault
  deriving DecidableEq, Repr

/-- The number a register's contents show, if it has a value. -/
def shown {α : Type} (num : α → Nat) : Reg α → Reg Nat
  | .unwritten => .unwritten
  | .written v => .written (num v)

/-- What the host reads from a register between commands; of an unwritten one "it gets no value" (10_state.md R31,
R32). Reading changes nothing. -/
def hostRead (s : State) : RegName → Reg Nat
  | .state => .written (stateTag s.decoder).toNat
  | .len => shown BitVec.toNat s.len
  | .offset => shown BitVec.toNat s.offset
  | .cmd => shown BitVec.toNat s.cmd
  | .argBuf => shown id s.argBuf
  | .argLen => shown BitVec.toNat s.argLen
  | .argVer => shown BitVec.toNat s.argVer
  | .argQid => shown BitVec.toNat s.argQid
  | .argIn => shown id s.argIn
  | .argInlen => shown id s.argInlen
  | .resLen => shown BitVec.toNat s.resLen
  | .resKind => shown (fun k => (resultCode k).toNat) s.resKind
  | .resFrame => shown BitVec.toNat s.resFrame
  | .resCons => shown id s.resCons
  | .fault => .written (faultCode s.fault).toNat

end Sys2Proof.Machine
end

