-- ==== Sys2Proof/Machine/Decoder.lean ====
section
/-! DEFINITION. The decoder commands (41_decoder.md): `INIT_DECODER` and `DECODE`, one definition per arm of the state
machine. -/

namespace Sys2Proof.Machine

/-- `INIT_DECODER`: `STATE <- PFX0` and nothing else (41_decoder.md R100). -/
def execInitDecoder (s : State) : Answer := .next { s with decoder := .pfx0 }

/-- A step that answers `GATHER` after one byte and moves to `d`. -/
def advance (d : DecoderState) (s : State) : Answer :=
  .next (setDecodeResult .gather 0#16 1 { s with decoder := d })

/-- A framing error: resynchronize and report it (41_decoder.md R114, 60_exceptions.md R140). -/
def framingError (kind : ResultKind) (s : State) : Answer :=
  .next (setDecodeResult kind 0#16 1 (resync s))

/-- `PFX0`, `PFX1`: a zero byte moves to `d`; any other returns to `PFX0`, reporting no error (41_decoder.md R104). -/
def armPrefix (d : DecoderState) (src : Nat) (s : State) : Answer :=
  withChunkByte src s fun b =>
  if b = Config.pfxZero then advance d s else advance .pfx0 s

/-- `PFX2`, `PFX3`, `RSV0`: one byte, not examined (41_decoder.md R105, R109). -/
def armSkip (d : DecoderState) (src : Nat) (s : State) : Answer :=
  withChunkByte src s fun _ => advance d s

/-- `AA1` to `AA4`: a preamble byte (41_decoder.md R106). -/
def armPreamble (d : DecoderState) (src : Nat) (s : State) : Answer :=
  withChunkByte src s fun b =>
  if b = Config.preByte then advance d s else framingError .noHeader s

/-- `LEN0`: `LEN <- zext_16(b)` (41_decoder.md R107). -/
def armLen0 (src : Nat) (s : State) : Answer :=
  withChunkByte src s fun b => advance .len1 { s with len := .written (b.setWidth 16) }

/-- `LEN1`: `LEN <- LEN | (zext_16(b) << 8)` (41_decoder.md R108). -/
def armLen1 (src : Nat) (s : State) : Answer :=
  withChunkByte src s fun b =>
  withRegister s.len s fun len =>
  advance .rsv0 { s with len := .written (len ||| (b.setWidth 16 <<< 8)) }

/-- `RSV1`: the second reserved byte, not examined, then the length check (41_decoder.md R110). -/
def armRsv1 (src : Nat) (s : State) : Answer :=
  withRegister s.argLen s fun cap =>
  withChunkByte src s fun _ =>
  withRegister s.len s fun len =>
  if cap.toNat < len.toNat ∨ len.toNat < s.platform.ethMinLen then framingError .invalidLength s
  else advance .gath { s with offset := .written 0#16 }

/-- `GATH`: copy `n = min(ARG_INLEN, LEN - OFFSET)` payload bytes (41_decoder.md R111). The difference is of naturals and
is 0 where `OFFSET > LEN`, which no run reaches (10_state.md R26; log 11). -/
def armGath (src inlen : Nat) (s : State) : Answer :=
  withRegister s.argBuf s fun out =>
  withRegister s.argLen s fun cap =>
  withRegister s.len s fun len =>
  withRegister s.offset s fun off =>
  let n := min inlen (len.toNat - off.toNat)
  let dst := out + off.toNat
  if cap.toNat < off.toNat + n then raiseFault .outOfBounds s
  else if rangesMeet src dst n then raiseFault .overlap s
  else
    whenAdmitted (memAdmitAll s.platform .read src n && memAdmitAll s.platform .write dst n)
      (.next (setDecodeResult .gather 0#16 n
        { s with
          mem := Memory.copy s.mem src dst n
          offset := .written (BitVec.ofNat 16 (off.toNat + n))
          decoder := if off.toNat + n = len.toNat then .ft0 else .gath }))

/-- `FT0`: the first footer byte (41_decoder.md R112). -/
def armFt0 (src : Nat) (s : State) : Answer :=
  withChunkByte src s fun b =>
  if b = Config.ftrByte then advance .ft1 s else framingError .noTail s

/-- `FT1`: the second footer byte and frame completion, which reports `OFFSET` (41_decoder.md R113). -/
def armFt1 (src : Nat) (s : State) : Answer :=
  withChunkByte src s fun b =>
  if b = Config.ftrByte then
    withRegister s.offset s fun f => .next (setDecodeResult .frame f 1 (resync s))
  else framingError .noTail s

/-- The arm of each state, with the chunk's address and length (41_decoder.md R101). -/
def decodeArm (src inlen : Nat) (s : State) : Answer :=
  match s.decoder with
  | .pfx0 => armPrefix .pfx1 src s
  | .pfx1 => armPrefix .pfx2 src s
  | .pfx2 => armSkip .pfx3 src s
  | .pfx3 => armSkip .aa1 src s
  | .aa1 => armPreamble .aa2 src s
  | .aa2 => armPreamble .aa3 src s
  | .aa3 => armPreamble .aa4 src s
  | .aa4 => armPreamble .len0 src s
  | .len0 => armLen0 src s
  | .len1 => armLen1 src s
  | .rsv0 => armSkip .rsv1 src s
  | .rsv1 => armRsv1 src s
  | .gath => armGath src inlen s
  | .ft0 => armFt0 src s
  | .ft1 => armFt1 src s
  | .uninit => raiseFault .uninit s

/-- `DECODE`: the pre-checks in the order of 41_decoder.md R102, then one arm (R101). -/
def execDecode (s : State) : Answer :=
  if s.decoder = .uninit then raiseFault .uninit s
  else
    withRegister s.argIn s fun src =>
    withRegister s.argInlen s fun inlen =>
    if inlen = 0 then raiseFault .emptyInput s
    else decodeArm src inlen s

end Sys2Proof.Machine
end

