-- ==== Sys2Proof/Machine/Encoder.lean ====
section
/-! DEFINITION. The encoder commands (40_encoder.md): they write wire bytes into caller memory and never touch the
decoder (R84). -/

namespace Sys2Proof.Machine

/-- Byte 5 of the envelope: `L[15:8]`, or `L[12:8] | V[2:0] << 5` when `V != 0` (30_encoding.md R61). -/
def headerLenHigh (len : Half) (ver : Word) : Byte :=
  let h5 : Byte := len.extractLsb' 8 8
  if ver = 0#32 then h5 else (h5 &&& 0x1F#8) ||| ((ver.extractLsb' 0 3).setWidth 8 <<< 5)

/-- The eight header bytes of 40_encoder.md R80: preamble, little-endian length, reserved/version bytes. -/
def headerBytes (len : Half) (ver : Word) : List Byte :=
  [Config.preByte, Config.preByte, Config.preByte, Config.preByte,
   len.extractLsb' 0 8,
   headerLenHigh len ver,
   if ver = 0#32 then 0#8 else ver.extractLsb' 3 8,
   if ver = 0#32 then 0#8 else ver.extractLsb' 11 8]

/-- The two footer bytes (40_encoder.md R81). -/
def footerBytes : List Byte := [Config.ftrByte, Config.ftrByte]

/-- The two bytes of a QID tag: `0x00`, then the queue identifier (30_encoding.md R62). -/
def qidBytes (qid : Byte) : List Byte := [0x00#8, qid]

/-- The end of an encoder command: admission of every byte (20_memory.md R53), the writes, and `RES_LEN` (30_encoding.md
R74). -/
def emitBytes (buf : Nat) (bytes : List Byte) (s : State) : Answer :=
  whenAdmitted (memAdmitAll s.platform .write buf bytes.length)
    (.next (setEncodeResult (BitVec.ofNat 16 bytes.length)
      { s with mem := Memory.writeBytes s.mem buf bytes }))

/-- `CREATE_HEADER` (40_encoder.md R80). -/
def execCreateHeader (s : State) : Answer :=
  withRegister s.argBuf s fun buf =>
  withRegister s.argLen s fun len =>
  withRegister s.argVer s fun ver =>
  if 2 ^ Config.verW ≤ ver.toNat then raiseFault .versionRange s
  else emitBytes buf (headerBytes len ver) s

/-- `CREATE_FOOTER` (40_encoder.md R81). -/
def execCreateFooter (s : State) : Answer :=
  withRegister s.argBuf s fun buf => emitBytes buf footerBytes s

/-- `ADD_QID` (40_encoder.md R82). -/
def execAddQid (s : State) : Answer :=
  withRegister s.argBuf s fun buf =>
  withRegister s.argQid s fun qid => emitBytes buf (qidBytes qid) s

end Sys2Proof.Machine
end

