-- ==== Sys2Proof/Machine/Dispatch.lean ====
section
/-! DEFINITION. The meaning of each command, one arm per constructor of `Instr` (30_encoding.md R70). -/

namespace Sys2Proof.Machine

def exec (i : Instr) (s : State) : Host.Outcome State Fault Refusal :=
  match i with
  | .createHeader => Sys2Proof.Machine.execCreateHeader s
  | .createFooter => Sys2Proof.Machine.execCreateFooter s
  | .addQid => Sys2Proof.Machine.execAddQid s
  | .initDecoder => Sys2Proof.Machine.execInitDecoder s
  | .decode => Sys2Proof.Machine.execDecode s

end Sys2Proof.Machine
end

