-- ==== Sys2Proof/Machine/Fetch.lean ====
section
/-! DEFINITION. What the machine takes next. The codec "fetches no instructions. The host issues commands one at a time"
(10_state.md R21): the next command is the host's next write of `CMD`. -/

namespace Sys2Proof.Machine

/-- What the host's next move leads to. -/
inductive Fetched where
  /-- No command runs: the state after the move. -/
  | quiet (s : State)
  /-- A legal `CMD` word was written: the command, and the state it runs in. -/
  | command (i : Instr) (s : State)
  deriving DecidableEq, Repr

/-- Writing `CMD`. While `FAULT != 0` it "executes nothing and changes nothing" (60_exceptions.md R143). Otherwise `CMD`
takes the word (log 7), and an illegal word raises `ILLEGAL_CMD` (30_encoding.md R72), the first check of all
(60_exceptions.md R144). -/
def acceptCmd (w : Word) (s : State) : Fetched :=
  if s.fault = .none then
    match decode w with
    | .ok i => .command i { s with cmd := .written w }
    | .error _ => .quiet (recordFault .illegalCmd { s with cmd := .written w })
  else .quiet s

/-- Take the host's next move. With none the codec performs no step "except in response to a command"
(60_exceptions.md R154; log 6). -/
def fetch (s : State) : Fetched :=
  match s.host with
  | [] => .quiet s
  | .cmd w :: rest => acceptCmd w { s with host := rest }
  | .operand o :: rest => .quiet (writeOperand o { s with host := rest })
  | .store a b :: rest => .quiet { s with mem := Memory.write s.mem (s.platform.addrBits a) b, host := rest }
  | .powerOn :: rest => .quiet (powerOnReset { s with host := rest })

/-- `s` with a write of `CMD`, the word `w` of `nbits` bits, as the host's very next move. -/
def issueNext (s : State) (nbits w : Nat) : State :=
  { s with host := .cmd (BitVec.ofNat 32 (w % 2 ^ nbits)) :: s.host }

end Sys2Proof.Machine
end

