-- ==== Sys2Proof/Machine/Step.lean ====
section
/-! DEFINITION. One step: the host's next move, and the whole of the command it issues if it issues one. "Its whole
pseudocode is one step of the codec's single agent" (00_scope.md R13). -/

namespace Sys2Proof.Machine

/-- One step of the machine. -/
def step (s : State) : Host.Outcome State Fault Refusal :=
  match fetch s with
  | .quiet t => .next t
  | .command i t => exec i t

/-- `s` with the command word `w` of `nbits` bits placed where `step` takes its next command: a write of `CMD` as the
host's next move (log 5). -/
def State.withFetchWord (s : State) (nbits w : Nat) : State := issueNext s nbits w

end Sys2Proof.Machine
end

