-- ==== Sys2Proof/Safety.lean ====
section
/-! DEFINITION. The terms claims use: live and final states (60_exceptions.md R143, R145; 70_reset_and_hazards.md R171),
the invariants of the machine (10_state.md R26, R34), and a host that feeds a stream of bytes to `DECODE`
(70_reset_and_hazards.md R163). -/

namespace Sys2Proof.Machine

/-! ### Live and final states -/

/-- No fault has been recorded, so the codec executes commands (60_exceptions.md R143). -/
abbrev State.Live (s : State) : Prop := s.fault = .none

/-- The end of a run: the host has no move left, and `FAULT = 0` (70_reset_and_hazards.md R171). -/
def State.Final (s : State) : Prop := s.host = [] ∧ s.Live

/-! ### What a command checks and touches -/

/-- An answer with its next state changed. -/
def mapNext (f : State → State) : Answer → Answer
  | .next t => .next (f t)
  | .fault r => .fault r
  | .refused r => .refused r

/-- A register holds no value. -/
def Reg.isUnwritten {α : Type} : Reg α → Bool
  | .unwritten => true
  | .written _ => false

/-- Whether a check of a register's value fails; an unwritten register fails none here, having a check of its own. -/
def Reg.fails {α : Type} (r : Reg α) (bad : α → Bool) : Bool :=
  match r with
  | .unwritten => false
  | .written v => bad v

/-- The capacity check and the overlap check of `GATH` (41_decoder.md R111), each as "it fails". -/
def gathFails (s : State) (bad : (src out : Nat) → (n off cap : Nat) → Bool) : Bool :=
  s.argIn.fails fun src => s.argInlen.fails fun inlen => s.argBuf.fails fun out => s.argLen.fails fun cap =>
  s.len.fails fun len => s.offset.fails fun off =>
    bad src out (min inlen (len.toNat - off.toNat)) off.toNat cap.toNat

/-- The checks of a command after `ILLEGAL_CMD`, in the order of 60_exceptions.md R144, each with "it fails" and its cause. -/
def preconditionChecks (i : Instr) (s : State) : List (Bool × FaultCode) :=
  match i with
  | .createHeader =>
    [(s.argBuf.isUnwritten || s.argLen.isUnwritten || s.argVer.isUnwritten, .unwrittenArg),
     (s.argVer.fails fun v => decide (2 ^ 19 ≤ v.toNat), .versionRange)]
  | .createFooter => [(s.argBuf.isUnwritten, .unwrittenArg)]
  | .addQid => [(s.argBuf.isUnwritten || s.argQid.isUnwritten, .unwrittenArg)]
  | .initDecoder => []
  | .decode =>
    [(s.decoder == .uninit, .uninit),
     (s.argIn.isUnwritten || s.argInlen.isUnwritten, .unwrittenArg),
     (s.argInlen.fails fun n => n == 0, .emptyInput),
     (s.decoder == .rsv1 && s.argLen.isUnwritten, .unwrittenArg),
     (s.decoder == .gath && (s.argBuf.isUnwritten || s.argLen.isUnwritten), .unwrittenArg),
     (s.decoder == .gath && gathFails s fun _ _ n off cap => decide (cap < off + n), .outOfBounds),
     (s.decoder == .gath &&
        gathFails s fun src out n off _ =>
          (List.range n).any fun i => (List.range n).any fun j => src + i == out + off + j, .overlap)]

/-- The first check of a list that fails. -/
def firstFailure : List (Bool × FaultCode) → Option FaultCode
  | [] => none
  | (failed, cause) :: rest => if failed then some cause else firstFailure rest

/-- The bytes a command touches, and how: the table of 20_memory.md R53. -/
def Touches (i : Instr) (s : State) (a : Nat) (kind : Config.AccessKind) : Prop :=
  match i with
  | .createHeader => kind = .write ∧ ∃ b, s.argBuf = .written b ∧ b ≤ a ∧ a < b + 8
  | .createFooter => kind = .write ∧ ∃ b, s.argBuf = .written b ∧ b ≤ a ∧ a < b + 2
  | .addQid => kind = .write ∧ ∃ b, s.argBuf = .written b ∧ b ≤ a ∧ a < b + 2
  | .initDecoder => False
  | .decode =>
    if s.decoder = .gath then
      ∃ src inlen out len off, s.argIn = .written src ∧ s.argInlen = .written inlen ∧ s.argBuf = .written out ∧
        s.len = .written len ∧ s.offset = .written off ∧
        match kind with
        | .read => src ≤ a ∧ a < src + min inlen (len.toNat - off.toNat)
        | .write => out + off.toNat ≤ a ∧
            a < out + off.toNat + min inlen (len.toNat - off.toNat)
    else kind = .read ∧ ∃ src, s.argIn = .written src ∧ a = src

/-! ### Invariants -/

/-- `LEN` and `OFFSET` as each value of `STATE` leaves them (10_state.md R26, R34). In `GATH`, `FT0` and `FT1`,
`ETH_MIN_LEN <= LEN` and `OFFSET <= LEN`; in `GATH` the countdown is at least 1 (R26, 41_decoder.md R111), and in `FT0` and
`FT1` it is 0. `LEN` is written from `LEN1` on, with its high byte still 0 in `LEN1` (41_decoder.md R108), and both are
unwritten in `UNINIT`. -/
def HandleInv (s : State) : Prop :=
  match s.decoder with
  | .uninit => s.len = .unwritten ∧ s.offset = .unwritten
  | .len1 => ∃ l, s.len = .written l ∧ l.toNat < 256
  | .rsv0 => ∃ l, s.len = .written l
  | .rsv1 => ∃ l, s.len = .written l
  | .gath => ∃ l o, s.len = .written l ∧ s.offset = .written o ∧ s.platform.ethMinLen ≤ l.toNat ∧ o.toNat < l.toNat
  | .ft0 => ∃ l, s.len = .written l ∧ s.offset = .written l ∧ s.platform.ethMinLen ≤ l.toNat
  | .ft1 => ∃ l, s.len = .written l ∧ s.offset = .written l ∧ s.platform.ethMinLen ≤ l.toNat
  | _ => True

/-- The three `DECODE` results are written together (10_state.md R29): `RES_CONS >= 1` (41_decoder.md R115), `RES_FRAME` is at
least `ETH_MIN_LEN` with `FRAME` and 0 with any other kind (30_encoding.md R73). -/
def ResultInv (s : State) : Prop :=
  (s.resKind = .unwritten ∧ s.resFrame = .unwritten ∧ s.resCons = .unwritten) ∨
  ∃ k f c, s.resKind = .written k ∧ s.resFrame = .written f ∧ s.resCons = .written c ∧ 1 ≤ c ∧
    if k = .frame then s.platform.ethMinLen ≤ f.toNat else f = 0#16

/-- Caller memory is in canonical form and lists addresses of the address space only (20_memory.md R40). -/
def MemoryInv (s : State) : Prop := Memory.wf s.mem = true ∧ ∀ c ∈ s.mem, c.1 < 2 ^ s.platform.addrW

/-- Each `ADDR_W`-bit register holds an `ADDR_W`-bit value, if any (10_state.md R28, R29; 00_scope.md R8). -/
def AddressInv (s : State) : Prop :=
  ∀ v, s.argBuf = .written v ∨ s.argIn = .written v ∨ s.argInlen = .written v ∨ s.resCons = .written v →
    v < 2 ^ s.platform.addrW

/-- The machine's invariant, with legal parameters (00_scope.md R7). -/
def State.Inv (s : State) : Prop := s.platform.WellFormed = true ∧ HandleInv s ∧ ResultInv s ∧ MemoryInv s ∧ AddressInv s

/-! ### A host feeding a stream -/

/-- A non-`GATHER` result, with the address of the byte whose consumption reports it. -/
structure Report where
  address : Nat
  kind : ResultKind
  frame : Half
  deriving DecidableEq, Repr

/-- The operand writes of `DECODE out, cap, src, n` (30_encoding.md R75). -/
def presentChunk (out : Nat) (cap : Half) (src n : Nat) (s : State) : State :=
  { s with
    argBuf := .written (s.platform.addrBits out)
    argLen := .written cap
    argIn := .written (s.platform.addrBits src)
    argInlen := .written (s.platform.addrBits n) }

/-- What a `DECODE` result adds to the list of non-`GATHER` results. -/
def reportOf (address : Nat) (kind : ResultKind) (frame : Half) : List Report :=
  if kind = .gather then [] else [{ address, kind, frame }]

/-- From `s`, a host that feeds the stream at `start .. stop - 1` to `DECODE`, with the same `out` and `cap` throughout, can
have reached address `cursor` with these reports, in the state given. Each call presents any `n >= 1` of the bytes left,
and the cursor moves on by `RES_CONS` (70_reset_and_hazards.md R163; 95_test_vectors.md P2). -/
inductive Feeds (out : Nat) (cap : Half) (start stop : Nat) (s : State) : Nat → List Report → State → Prop where
  | start : Feeds out cap start stop s start [] s
  | call {cursor : Nat} {reports : List Report} {u t : State} {n : Nat} {kind : ResultKind} {frame : Half} {cons : Nat}
      (before : Feeds out cap start stop s cursor reports u)
      (nonempty : 1 ≤ n) (within : cursor + n ≤ stop)
      (ran : exec .decode (presentChunk out cap cursor n u) = .next t) (live : t.Live)
      (hkind : t.resKind = .written kind) (hframe : t.resFrame = .written frame) (hcons : t.resCons = .written cons) :
      Feeds out cap start stop s (cursor + cons) (reports ++ reportOf cursor kind frame) t

end Sys2Proof.Machine
end

