-- ==== Sys2Proof/Certificates/Slice0/Obligations.lean ====
section
/-! DEFINITION. The statements about the codec, from the numbered rules of spec/. Each docstring names the rules it
formalises; OBLIGATIONS.json says which are stated whole. -/

open Sys2Proof Sys2Proof.Machine Sys2Proof.Config

/-! ### Encodings -/

/-- R70, opcode_table.json: the five `CMD` words, written out bit by bit, select their commands. -/
def Obligations.CmdWordsSelectTheirCommands : Prop :=
  decode 0b00000000000000000000000000000001#32 = .ok .createHeader ∧
  decode 0b00000000000000000000000000000010#32 = .ok .createFooter ∧
  decode 0b00000000000000000000000000000011#32 = .ok .addQid ∧
  decode 0b00000000000000000000000000000100#32 = .ok .initDecoder ∧
  decode 0b00000000000000000000000000000101#32 = .ok .decode

/-- R70, R72: decoding and encoding agree both ways, so each command has exactly one `CMD` word, and a word is illegal
exactly when it is not well formed. -/
def Obligations.DecodeEncodeAgree : Prop :=
  (∀ (w : Word) (i : Instr), decode w = .ok i ↔ w = encode i) ∧
  (∀ w : Word, (∃ e, decode w = .error e) ↔
    w.toNat % 8 = 0 ∨ w.toNat % 8 = 6 ∨ w.toNat % 8 = 7 ∨ w.toNat / 8 ≠ 0)

/-- R61: the 32-bit little-endian word `W` at envelope offsets 4 to 7 is `L` when `V = 0`; when `V != 0` its low 13 bits are
`L[12:0]` and bits 31..13 are `V`. -/
def Obligations.HeaderWordPacksLengthAndVersion : Prop :=
  ∀ (len : Half) (ver : Word), ver.toNat < 2 ^ 19 →
    ∃ b4 b5 b6 b7 : Byte,
      headerBytes len ver = [0xAA#8, 0xAA#8, 0xAA#8, 0xAA#8, b4, b5, b6, b7] ∧
      b4.toNat + 2 ^ 8 * b5.toNat + 2 ^ 16 * b6.toNat + 2 ^ 24 * b7.toNat =
        if ver = 0#32 then len.toNat else len.toNat % 2 ^ 13 + 2 ^ 13 * ver.toNat

/-- R117, its second sentence: the length word the decoder sees, envelope bytes 4 and 5, is `L` exactly when `V = 0` or
`V[2:0] = L[15:13]`. -/
def Obligations.DecoderVisibleLengthEqualsLength : Prop :=
  ∀ (len : Half) (ver : Word), ver.toNat < 2 ^ 19 →
    ∃ b4 b5 : Byte, (headerBytes len ver)[4]? = some b4 ∧ (headerBytes len ver)[5]? = some b5 ∧
      (b4.toNat + 2 ^ 8 * b5.toNat = len.toNat ↔ ver = 0#32 ∨ ver.toNat % 8 = len.toNat / 2 ^ 13)

/-- R23, R73, R141: the numbers the host reads for `STATE`, `RES_KIND` and `FAULT`, in the order of their tables. -/
def Obligations.RegisterCodesMatchTables : Prop :=
  [DecoderState.pfx0, .pfx1, .pfx2, .pfx3, .aa1, .aa2, .aa3, .aa4, .len0, .len1, .rsv0, .rsv1, .gath, .ft0, .ft1,
    .uninit].map (fun d => (stateTag d).toNat) = List.range 16 ∧
  [ResultKind.gather, .frame, .noHeader, .invalidLength, .noTail].map (fun k => (resultCode k).toNat) = List.range 5 ∧
  [FaultCode.none, .illegalCmd, .uninit, .emptyInput, .versionRange, .outOfBounds, .overlap, .unwrittenArg].map
    (fun c => (faultCode c).toNat) = List.range 8

/-! ### Reset and the host's moves -/

/-- R34: what every register reads as after power-on reset. -/
def Obligations.ResetRegisterValues : Prop :=
  ∀ r : RegName, hostRead State.reset r =
    match r with
    | .state => .written 0xF
    | .fault => .written 0
    | _ => .unwritten

/-- R160: from any state, power-on reset gives every register its reset value and touches no byte of caller memory. -/
def Obligations.PowerOnResetsRegistersNotMemory : Prop :=
  ∀ (s : State) (rest : List HostMove), s.host = .powerOn :: rest →
    ∃ t, step s = .next t ∧ (∀ r, hostRead t r = hostRead State.reset r) ∧ t.mem = s.mem ∧ t.platform = s.platform

/-- R28, R32: a host write of an operand register changes that register and no other state. That an `ADDR_W`-bit register
takes the value's low bits (log 13), and that a faulted codec's operand registers can be written (log 8), is the model's
choice. -/
def Obligations.HostOperandWriteChangesOneRegister : Prop :=
  ∀ (s : State) (rest : List HostMove) (o : OperandWrite), s.host = .operand o :: rest →
    step s = .next
      (match o with
       | .argBuf v => { s with host := rest, argBuf := .written (v % 2 ^ s.platform.addrW) }
       | .argLen v => { s with host := rest, argLen := .written v }
       | .argVer v => { s with host := rest, argVer := .written v }
       | .argQid v => { s with host := rest, argQid := .written v }
       | .argIn v => { s with host := rest, argIn := .written (v % 2 ^ s.platform.addrW) }
       | .argInlen v => { s with host := rest, argInlen := .written (v % 2 ^ s.platform.addrW) })

/-- R40, R51: a host store changes one byte of caller memory and no register. That it needs no admission (log 9)
and takes the address's low `ADDR_W` bits (log 13) is the model's choice. -/
def Obligations.HostStoreChangesOneByte : Prop :=
  ∀ (s : State) (rest : List HostMove) (a : Nat) (b : Byte), s.host = .store a b :: rest →
    ∃ t, step s = .next t ∧ t = { s with host := rest, mem := t.mem } ∧ Memory.read t.mem (a % 2 ^ s.platform.addrW) = b ∧
      ∀ x, x ≠ a % 2 ^ s.platform.addrW → Memory.read t.mem x = Memory.read s.mem x

/-- R154: with no move of the host, nothing changes. That such a step answers the same state is the model's choice (log 6). -/
def Obligations.IdleStepChangesNothing : Prop :=
  ∀ s : State, s.host = [] → step s = .next s

/-- R28, R70: when the host writes a legal `CMD` word to a live codec, `step` is `exec` of the decoded command, in the state
whose `CMD` holds the word; and `withFetchWord` places exactly that move. -/
def Obligations.StepRunsDecodedCommand : Prop :=
  (∀ (s : State) (rest : List HostMove) (w : Word) (i : Instr),
    s.host = .cmd w :: rest → s.Live → decode w = .ok i →
      step s = exec i { s with host := rest, cmd := .written w }) ∧
  (∀ (s : State) (w : Word) (i : Instr), s.Live → decode w = .ok i →
      step (s.withFetchWord 32 w.toNat) = exec i { s with cmd := .written w })

/-- R72, R141, R142: an illegal `CMD` word written to a live codec takes the fault `ILLEGAL_CMD` and changes nothing else.
That `CMD` holds the word after it is the model's choice (log 7). -/
def Obligations.IllegalCmdTakesFault : Prop :=
  ∀ (s : State) (rest : List HostMove) (w : Word), s.host = .cmd w :: rest → s.Live →
    w.toNat % 8 = 0 ∨ w.toNat % 8 = 6 ∨ w.toNat % 8 = 7 ∨ w.toNat / 8 ≠ 0 →
      step s = .next { s with host := rest, cmd := .written w, fault := .illegalCmd }

/-- R143, its first sentence: while `FAULT != 0`, writing `CMD` executes nothing and changes nothing. -/
def Obligations.FaultedCodecIgnoresCommands : Prop :=
  ∀ (s : State) (rest : List HostMove) (w : Word), s.host = .cmd w :: rest → s.fault ≠ .none →
    step s = .next { s with host := rest }

/-- R30: once nonzero, `FAULT` is changed by no step but power-on reset. -/
def Obligations.FaultChangedOnlyByPowerOn : Prop :=
  ∀ s t : State, step s = .next t → s.fault ≠ .none → t.fault ≠ s.fault → ∃ rest, s.host = .powerOn :: rest

/-- R7, R45: no step changes the parameters. -/
def Obligations.StepKeepsParameters : Prop :=
  ∀ s t : State, step s = .next t → t.platform = s.platform

/-! ### Encoder commands -/

/-- R80: `CREATE_HEADER` in every case: its faults in order, stuck, and its effect and frame. -/
def Obligations.CreateHeaderMeaning : Prop :=
  encode .createHeader = 0b001#32 ∧
  ∀ s : State,
    (s.argBuf = .unwritten ∨ s.argLen = .unwritten ∨ s.argVer = .unwritten →
      exec .createHeader s = .next { s with fault := .unwrittenArg }) ∧
    ∀ (b : Nat) (l : Half) (v : Word), s.argBuf = .written b → s.argLen = .written l → s.argVer = .written v →
      (2 ^ 19 ≤ v.toNat → exec .createHeader s = .next { s with fault := .versionRange }) ∧
      (v.toNat < 2 ^ 19 → (∃ k < 8, memAdmit s.platform (b + k) .write = false) →
        exec .createHeader s = .fault .notAdmitted) ∧
      (v.toNat < 2 ^ 19 → (∀ k < 8, memAdmit s.platform (b + k) .write = true) →
        ∃ t, exec .createHeader s = .next t ∧ t = { s with mem := t.mem, resLen := .written 8#16 } ∧
          (∀ k < 4, Memory.read t.mem (b + k) = 0xAA#8) ∧
          (Memory.read t.mem (b + 4)).toNat = l.toNat % 2 ^ 8 ∧
          (Memory.read t.mem (b + 5)).toNat =
            (if v = 0#32 then l.toNat / 2 ^ 8 else l.toNat / 2 ^ 8 % 2 ^ 5 + 2 ^ 5 * (v.toNat % 2 ^ 3)) ∧
          (Memory.read t.mem (b + 6)).toNat = v.toNat / 2 ^ 3 % 2 ^ 8 ∧
          (Memory.read t.mem (b + 7)).toNat = v.toNat / 2 ^ 11 ∧
          ∀ x, x < b ∨ b + 8 ≤ x → Memory.read t.mem x = Memory.read s.mem x)

/-- R81: `CREATE_FOOTER` in every case. -/
def Obligations.CreateFooterMeaning : Prop :=
  encode .createFooter = 0b010#32 ∧
  ∀ s : State,
    (s.argBuf = .unwritten → exec .createFooter s = .next { s with fault := .unwrittenArg }) ∧
    ∀ b : Nat, s.argBuf = .written b →
      ((memAdmit s.platform b .write = false ∨ memAdmit s.platform (b + 1) .write = false) →
        exec .createFooter s = .fault .notAdmitted) ∧
      (memAdmit s.platform b .write = true → memAdmit s.platform (b + 1) .write = true →
        ∃ t, exec .createFooter s = .next t ∧ t = { s with mem := t.mem, resLen := .written 2#16 } ∧
          Memory.read t.mem b = 0x55#8 ∧ Memory.read t.mem (b + 1) = 0x55#8 ∧
          ∀ x, x < b ∨ b + 2 ≤ x → Memory.read t.mem x = Memory.read s.mem x)

/-- R82: `ADD_QID` in every case. -/
def Obligations.AddQidMeaning : Prop :=
  encode .addQid = 0b011#32 ∧
  ∀ s : State,
    (s.argBuf = .unwritten ∨ s.argQid = .unwritten → exec .addQid s = .next { s with fault := .unwrittenArg }) ∧
    ∀ (b : Nat) (q : Byte), s.argBuf = .written b → s.argQid = .written q →
      ((memAdmit s.platform b .write = false ∨ memAdmit s.platform (b + 1) .write = false) →
        exec .addQid s = .fault .notAdmitted) ∧
      (memAdmit s.platform b .write = true → memAdmit s.platform (b + 1) .write = true →
        ∃ t, exec .addQid s = .next t ∧ t = { s with mem := t.mem, resLen := .written 2#16 } ∧
          Memory.read t.mem b = 0x00#8 ∧ Memory.read t.mem (b + 1) = q ∧
          ∀ x, x < b ∨ b + 2 ≤ x → Memory.read t.mem x = Memory.read s.mem x)

/-- R84: the encoder commands answer the same whatever the handle holds, `UNINIT` among its states, and leave it
unchanged. -/
def Obligations.EncoderIndependentOfHandle : Prop :=
  ∀ (i : Instr) (s : State) (d : DecoderState) (l o : Reg Half), i = .createHeader ∨ i = .createFooter ∨ i = .addQid →
    exec i { s with decoder := d, len := l, offset := o } =
      mapNext (fun t => { t with decoder := d, len := l, offset := o }) (exec i s) ∧
    ∀ t, exec i s = .next t → t.decoder = s.decoder ∧ t.len = s.len ∧ t.offset = s.offset

/-- R83: a header at `B` and a footer at `B + 8 + L` can be written in either order: caller memory, in canonical form, ends
the same. -/
def Obligations.HeaderAndFooterCommute : Prop :=
  ∀ (s t1 t2 u1 u2 : State) (b f : Nat) (l : Half), Memory.wf s.mem = true → s.argLen = .written l →
    f = b + 8 + l.toNat →
    exec .createHeader { s with argBuf := .written b } = .next t1 → t1.fault = s.fault →
    exec .createFooter { t1 with argBuf := .written f } = .next t2 →
    exec .createFooter { s with argBuf := .written f } = .next u1 →
    exec .createHeader { u1 with argBuf := .written b } = .next u2 → t2.mem = u2.mem

/-! ### Decoder commands -/

/-- R100: `INIT_DECODER` sets `STATE` to `PFX0` in every state, and nothing else. -/
def Obligations.InitDecoderMeaning : Prop :=
  encode .initDecoder = 0b100#32 ∧ ∀ s : State, exec .initDecoder s = .next { s with decoder := .pfx0 }

/-- R161, R162: `UNINIT` is left only by a legal `INIT_DECODER` of the host, and entered only by power-on reset. -/
def Obligations.UninitLeftOnlyByInitDecoder : Prop :=
  ∀ s t : State, step s = .next t →
    (s.decoder = .uninit → t.decoder ≠ .uninit → s.Live ∧ ∃ rest, s.host = .cmd 4#32 :: rest) ∧
    (s.decoder ≠ .uninit → t.decoder = .uninit → ∃ rest, s.host = .powerOn :: rest)

/-- R102: the pre-checks of `DECODE`, in order. -/
def Obligations.DecodePrechecksInOrder : Prop :=
  ∀ s : State,
    (s.decoder = .uninit → exec .decode s = .next { s with fault := .uninit }) ∧
    (s.decoder ≠ .uninit → s.argIn = .unwritten ∨ s.argInlen = .unwritten →
      exec .decode s = .next { s with fault := .unwrittenArg }) ∧
    (s.decoder ≠ .uninit → s.argIn ≠ .unwritten → s.argInlen = .written 0 →
      exec .decode s = .next { s with fault := .emptyInput })

/-- R103: outside `GATH`, a `DECODE` that passes its checks is stuck unless `ARG_IN` is admitted; it reads that byte of
caller memory only and writes none; and when it completes it consumes 1 byte with `RES_FRAME = 0` but for a completed
frame. The one fault is for a register the arm finds unwritten: `ARG_LEN` (R110), or, in states no run reaches, `LEN` or
`OFFSET` (R11, log 10). -/
def Obligations.SingleByteArmsReadOneByte : Prop :=
  ∀ (s : State) (src inlen : Nat), s.decoder ≠ .uninit → s.decoder ≠ .gath →
    s.argIn = .written src → s.argInlen = .written inlen → inlen ≠ 0 →
    (memAdmit s.platform src .read = false → (s.decoder = .rsv1 → s.argLen ≠ .unwritten) →
      exec .decode s = .fault .notAdmitted) ∧
    (∀ m : Memory, Memory.read m src = Memory.read s.mem src →
      exec .decode { s with mem := m } = mapNext (fun t => { t with mem := m }) (exec .decode s)) ∧
    ∀ t, exec .decode s = .next t →
      t.mem = s.mem ∧
      (t.fault = s.fault ∧ t.resCons = .written 1 ∧
          (t.resFrame = .written 0#16 ∨ s.decoder = .ft1 ∧ t.resKind = .written .frame) ∨
        (s.decoder = .rsv1 ∧ s.argLen = .unwritten ∨ s.decoder ∈ [.len1, .rsv1] ∧ s.len = .unwritten ∨
            s.decoder = .ft1 ∧ s.offset = .unwritten) ∧
          t = { s with fault := .unwrittenArg })

/-- R104: `PFX0` and `PFX1`. -/
def Obligations.PrefixArmsRestartOnNonzero : Prop :=
  ∀ (s : State) (src inlen : Nat), s.decoder = .pfx0 ∨ s.decoder = .pfx1 →
    s.argIn = .written src → s.argInlen = .written inlen → inlen ≠ 0 →
    memAdmit s.platform src .read = true →
    exec .decode s = .next
      { s with
        decoder :=
          if Memory.read s.mem src ≠ 0x00#8 then .pfx0 else if s.decoder = .pfx0 then .pfx1 else .pfx2
        resKind := .written .gather, resFrame := .written 0#16, resCons := .written 1 }

/-- R105, R109: `PFX2`, `PFX3` and `RSV0` take any byte. -/
def Obligations.SkippedByteArmsAdvance : Prop :=
  ∀ (s : State) (src inlen : Nat) (d : DecoderState),
    (s.decoder, d) ∈ [(.pfx2, .pfx3), (.pfx3, .aa1), (.rsv0, DecoderState.rsv1)] →
    s.argIn = .written src → s.argInlen = .written inlen → inlen ≠ 0 →
    memAdmit s.platform src .read = true →
    exec .decode s = .next
      { s with
        decoder := d, resKind := .written .gather, resFrame := .written 0#16, resCons := .written 1 }

/-- R106: `AA1` to `AA4`. -/
def Obligations.PreambleArmsMatchAA : Prop :=
  ∀ (s : State) (src inlen : Nat) (d : DecoderState),
    (s.decoder, d) ∈ [(.aa1, .aa2), (.aa2, .aa3), (.aa3, .aa4), (.aa4, DecoderState.len0)] →
    s.argIn = .written src → s.argInlen = .written inlen → inlen ≠ 0 →
    memAdmit s.platform src .read = true →
    exec .decode s = .next
      (if Memory.read s.mem src ≠ 0xAA#8 then
        { s with
          decoder := .pfx0, resKind := .written .noHeader, resFrame := .written 0#16, resCons := .written 1 }
      else
        { s with
          decoder := d, resKind := .written .gather, resFrame := .written 0#16, resCons := .written 1 })

/-- R107: `LEN0` overwrites `LEN` with the byte. -/
def Obligations.LengthLowByteOverwritesLen : Prop :=
  ∀ (s : State) (src inlen : Nat), s.decoder = .len0 →
    s.argIn = .written src → s.argInlen = .written inlen → inlen ≠ 0 →
    memAdmit s.platform src .read = true →
    exec .decode s = .next
      { s with
        len := .written (BitVec.ofNat 16 (Memory.read s.mem src).toNat)
        decoder := .len1, resKind := .written .gather, resFrame := .written 0#16, resCons := .written 1 }

/-- R108: `LEN1` merges the high byte, all 8 bits of it; after R107 the result is the little-endian length. -/
def Obligations.LengthHighByteMergesIntoLen : Prop :=
  ∀ (s : State) (src inlen : Nat) (l : Half), s.decoder = .len1 → s.len = .written l →
    s.argIn = .written src → s.argInlen = .written inlen → inlen ≠ 0 →
    memAdmit s.platform src .read = true →
    ∃ l' : Half,
      exec .decode s = .next
        { s with
          len := .written l'
          decoder := .rsv0, resKind := .written .gather, resFrame := .written 0#16, resCons := .written 1 } ∧
      l'.toNat = l.toNat ||| ((Memory.read s.mem src).toNat <<< 8) ∧
      (l.toNat < 2 ^ 8 → l'.toNat = l.toNat + 2 ^ 8 * (Memory.read s.mem src).toNat)

/-- R110: `RSV1`, the length check. -/
def Obligations.SecondReservedByteChecksLength : Prop :=
  ∀ (s : State) (src inlen : Nat), s.decoder = .rsv1 →
    s.argIn = .written src → s.argInlen = .written inlen → inlen ≠ 0 →
    (s.argLen = .unwritten → exec .decode s = .next { s with fault := .unwrittenArg }) ∧
    ∀ (cap l : Half), s.argLen = .written cap → s.len = .written l →
      (memAdmit s.platform src .read = false → exec .decode s = .fault .notAdmitted) ∧
      (memAdmit s.platform src .read = true → cap.toNat < l.toNat ∨ l.toNat < s.platform.ethMinLen →
        exec .decode s = .next
          { s with
            decoder := .pfx0, resKind := .written .invalidLength, resFrame := .written 0#16
            resCons := .written 1 }) ∧
      (memAdmit s.platform src .read = true → s.platform.ethMinLen ≤ l.toNat → l.toNat ≤ cap.toNat →
        exec .decode s = .next
          { s with
            decoder := .gath, offset := .written 0#16
            resKind := .written .gather, resFrame := .written 0#16, resCons := .written 1 })

/-- R111: `GATH` in every case: its faults in order, stuck, and the copy with its frame. In states with `OFFSET > LEN`, which
no run reaches (R26), that the difference is 0 is the model's choice (log 11). -/
def Obligations.GatherCopiesPayload : Prop :=
  ∀ (s : State) (src inlen : Nat), s.decoder = .gath →
    s.argIn = .written src → s.argInlen = .written inlen → inlen ≠ 0 →
    (s.argBuf = .unwritten ∨ s.argLen = .unwritten → exec .decode s = .next { s with fault := .unwrittenArg }) ∧
    ∀ (out : Nat) (cap l o : Half) (n : Nat), s.argBuf = .written out → s.argLen = .written cap →
      s.len = .written l → s.offset = .written o → n = min inlen (l.toNat - o.toNat) →
      (cap.toNat < o.toNat + n → exec .decode s = .next { s with fault := .outOfBounds }) ∧
      (o.toNat + n ≤ cap.toNat → (∃ i < n, ∃ j < n, src + i = out + o.toNat + j) →
        exec .decode s = .next { s with fault := .overlap }) ∧
      (o.toNat + n ≤ cap.toNat → (∀ i < n, ∀ j < n, src + i ≠ out + o.toNat + j) →
        (∃ i < n, memAdmit s.platform (src + i) .read = false ∨
          memAdmit s.platform (out + o.toNat + i) .write = false) →
        exec .decode s = .fault .notAdmitted) ∧
      (o.toNat + n ≤ cap.toNat → (∀ i < n, ∀ j < n, src + i ≠ out + o.toNat + j) →
        (∀ i < n, memAdmit s.platform (src + i) .read = true ∧
          memAdmit s.platform (out + o.toNat + i) .write = true) →
        ∃ t, exec .decode s = .next t ∧
          t = { s with
            mem := t.mem, offset := .written (BitVec.ofNat 16 (o.toNat + n))
            decoder := if o.toNat + n = l.toNat then .ft0 else .gath
            resKind := .written .gather, resFrame := .written 0#16, resCons := .written n } ∧
          (∀ i < n, Memory.read t.mem (out + o.toNat + i) = Memory.read s.mem (src + i)) ∧
          ∀ x, x < out + o.toNat ∨ out + o.toNat + n ≤ x → Memory.read t.mem x = Memory.read s.mem x)

/-- R112: `FT0`. -/
def Obligations.FirstFooterByteMatches55 : Prop :=
  ∀ (s : State) (src inlen : Nat), s.decoder = .ft0 →
    s.argIn = .written src → s.argInlen = .written inlen → inlen ≠ 0 →
    memAdmit s.platform src .read = true →
    exec .decode s = .next
      (if Memory.read s.mem src ≠ 0x55#8 then
        { s with
          decoder := .pfx0, resKind := .written .noTail, resFrame := .written 0#16, resCons := .written 1 }
      else
        { s with
          decoder := .ft1, resKind := .written .gather, resFrame := .written 0#16, resCons := .written 1 })

/-- R113: `FT1`, and frame completion with the length in `OFFSET`. -/
def Obligations.SecondFooterByteCompletesFrame : Prop :=
  ∀ (s : State) (src inlen : Nat) (f : Half), s.decoder = .ft1 → s.offset = .written f →
    s.argIn = .written src → s.argInlen = .written inlen → inlen ≠ 0 →
    memAdmit s.platform src .read = true →
    exec .decode s = .next
      (if Memory.read s.mem src ≠ 0x55#8 then
        { s with
          decoder := .pfx0, resKind := .written .noTail, resFrame := .written 0#16, resCons := .written 1 }
      else
        { s with
          decoder := .pfx0, resKind := .written .frame, resFrame := .written f, resCons := .written 1 })

/-- R114, R140: whenever `DECODE` reports anything but `GATHER`, the handle is back in `PFX0` with `LEN` and `OFFSET`
unchanged, one byte is consumed, `RES_FRAME` is 0 unless a frame is complete, and nothing else has changed. -/
def Obligations.NonGatherResultResynchronizes : Prop :=
  ∀ (s t : State) (k : ResultKind), exec .decode s = .next t → t.Live → t.resKind = .written k → k ≠ .gather →
    t = { s with decoder := .pfx0, resKind := .written k, resFrame := t.resFrame, resCons := .written 1 } ∧
    (k ≠ .frame → t.resFrame = .written 0#16)

/-- R140: each framing error comes from its own states. -/
def Obligations.FramingErrorsComeFromTheirStates : Prop :=
  ∀ (s t : State), exec .decode s = .next t → t.Live →
    (t.resKind = .written .noHeader → s.decoder ∈ [.aa1, .aa2, .aa3, .aa4]) ∧
    (t.resKind = .written .invalidLength → s.decoder = .rsv1) ∧
    (t.resKind = .written .noTail → s.decoder ∈ [.ft0, .ft1]) ∧
    (t.resKind = .written .frame → s.decoder = .ft1)

/-- R115, its first two sentences: the consumption law. -/
def Obligations.DecodeConsumptionLaw : Prop :=
  ∀ (s t : State) (inlen : Nat), HandleInv s → s.argInlen = .written inlen → exec .decode s = .next t → t.Live →
    ∃ c : Nat, t.resCons = .written c ∧ 1 ≤ c ∧ c ≤ inlen ∧
      if s.decoder = .gath then
        ∃ l o : Half, s.len = .written l ∧ s.offset = .written o ∧ c = min inlen (l.toNat - o.toNat)
      else c = 1

/-- R122: a `DECODE` changes no byte but in `GATH`, and then only bytes from `OFFSET` on and below `LEN` of the output
buffer. -/
def Obligations.DecodeWritesOnlyPayloadBytes : Prop :=
  ∀ (s t : State) (x : Nat), exec .decode s = .next t → Memory.read t.mem x ≠ Memory.read s.mem x →
    s.decoder = .gath ∧ ∃ (out : Nat) (l o : Half), s.argBuf = .written out ∧ s.len = .written l ∧
      s.offset = .written o ∧ out + o.toNat ≤ x ∧ x < out + l.toNat

/-- R24, R25: which steps of the codec write `LEN` and `OFFSET`. -/
def Obligations.HandleWrittenOnlyInItsStates : Prop :=
  ∀ (i : Instr) (s t : State), exec i s = .next t →
    (t.len ≠ s.len → i = .decode ∧ s.decoder ∈ [.len0, .len1]) ∧
    (t.offset ≠ s.offset → i = .decode ∧ s.decoder ∈ [.rsv1, .gath])

/-- R26: the `DECODE` that enters `GATH` leaves `ETH_MIN_LEN <= LEN <= c` for its own `ARG_LEN = c`, and `OFFSET = 0`. -/
def Obligations.EnteringGatherBoundsLength : Prop :=
  ∀ (i : Instr) (s t : State), exec i s = .next t → s.decoder ≠ .gath → t.decoder = .gath →
    ∃ l c : Half, t.len = .written l ∧ s.argLen = .written c ∧ l.toNat ≤ c.toNat ∧
      s.platform.ethMinLen ≤ l.toNat ∧ t.offset = .written 0#16

/-! ### Faults, stuck commands and unread registers -/

/-- R142: faults are precise. A command that changes `FAULT` changes nothing else. -/
def Obligations.FaultsArePrecise : Prop :=
  ∀ (i : Instr) (s t : State), exec i s = .next t → t.fault ≠ s.fault → t = { s with fault := t.fault }

/-- R144: the first check of the list that fails is the one reported; if none fails, no fault is taken, in a state that meets
the handle's invariant, so that no unwritten `LEN` or `OFFSET` is read (log 10). -/
def Obligations.FirstFailedCheckIsReported : Prop :=
  ∀ (i : Instr) (s : State),
    match firstFailure (preconditionChecks i s) with
    | some cause => exec i s = .next { s with fault := cause }
    | none => HandleInv s → ∀ t, exec i s = .next t → t.fault = s.fault

/-- R45, R53, R145: a command that passes its checks and touches an address that is not admitted is stuck; and a command
that answers a live next state had every byte it touches admitted. -/
def Obligations.StuckExactlyWhenUnadmitted : Prop :=
  ∀ (i : Instr) (s : State),
    (exec i s = .fault .notAdmitted → ∃ a kind, Touches i s a kind ∧ memAdmit s.platform a kind = false) ∧
    (∀ t, exec i s = .next t → t.Live → ∀ a kind, Touches i s a kind → memAdmit s.platform a kind = true) ∧
    (firstFailure (preconditionChecks i s) = none → HandleInv s →
      (∃ a kind, Touches i s a kind ∧ memAdmit s.platform a kind = false) → exec i s = .fault .notAdmitted)

/-- R45: an address `>= 2^ADDR_W` is never admitted, whatever the map and the width. -/
def Obligations.NoAddressBeyondSpaceAdmitted : Prop :=
  ∀ (p : Platform) (a : Nat) (kind : AccessKind), memAdmit p a kind = true → a < 2 ^ p.addrW

/-- R71: an operand register a command's format does not name does not influence it. -/
def Obligations.UnnamedOperandsNotRead : Prop :=
  ∀ (s : State) (buf src inlen : Reg Nat) (ver : Reg Word) (len : Reg Half) (qid : Reg Byte),
    exec .createHeader { s with argQid := qid, argIn := src, argInlen := inlen } =
      mapNext (fun t => { t with argQid := qid, argIn := src, argInlen := inlen }) (exec .createHeader s) ∧
    exec .createFooter { s with argLen := len, argVer := ver, argQid := qid, argIn := src, argInlen := inlen } =
      mapNext (fun t => { t with argLen := len, argVer := ver, argQid := qid, argIn := src, argInlen := inlen })
        (exec .createFooter s) ∧
    exec .addQid { s with argLen := len, argVer := ver, argIn := src, argInlen := inlen } =
      mapNext (fun t => { t with argLen := len, argVer := ver, argIn := src, argInlen := inlen }) (exec .addQid s) ∧
    exec .decode { s with argVer := ver, argQid := qid } =
      mapNext (fun t => { t with argVer := ver, argQid := qid }) (exec .decode s) ∧
    (s.decoder ≠ .gath → exec .decode { s with argBuf := buf } =
      mapNext (fun t => { t with argBuf := buf }) (exec .decode s)) ∧
    (s.decoder ≠ .gath → s.decoder ≠ .rsv1 → exec .decode { s with argLen := len } =
      mapNext (fun t => { t with argLen := len }) (exec .decode s))

/-- R29, R33: a command leaves `CMD`, the operand registers and the parameters as they are, and writes only the result
registers listed for it. -/
def Obligations.CommandsKeepOtherRegisters : Prop :=
  ∀ (i : Instr) (s t : State), exec i s = .next t →
    t.cmd = s.cmd ∧ t.argBuf = s.argBuf ∧ t.argLen = s.argLen ∧ t.argVer = s.argVer ∧ t.argQid = s.argQid ∧
    t.argIn = s.argIn ∧ t.argInlen = s.argInlen ∧ t.host = s.host ∧
    (i = .initDecoder ∨ i = .decode → t.resLen = s.resLen) ∧
    (i ≠ .decode → t.resKind = s.resKind ∧ t.resFrame = s.resFrame ∧ t.resCons = s.resCons) ∧
    (i ≠ .decode → i ≠ .initDecoder → t.decoder = s.decoder)

/-! ### Invariants -/

/-- The invariant holds at reset. The map, the memory and the host's moves at reset are the model's choices
(logs 2, 3, 5). -/
def Obligations.ResetMeetsTheInvariant : Prop := State.reset.Inv

/-- R26, R34: every step from any state keeps the handle's invariant. -/
def Obligations.StepKeepsHandleInvariant : Prop :=
  ∀ s t : State, s.platform.WellFormed = true → HandleInv s → step s = .next t → HandleInv t

/-- R29, R73, R115: every step keeps the result registers' invariant. -/
def Obligations.StepKeepsResultInvariant : Prop :=
  ∀ s t : State, s.platform.WellFormed = true → HandleInv s → ResultInv s → step s = .next t → ResultInv t

/-- R40: every step keeps caller memory canonical and inside the address space of `2^ADDR_W` bytes. -/
def Obligations.StepKeepsMemoryInvariant : Prop :=
  ∀ s t : State, MemoryInv s → step s = .next t → MemoryInv t

/-- R8, R28, R29: every step keeps the values of `ARG_BUF`, `ARG_IN`, `ARG_INLEN` and `RES_CONS` within `ADDR_W` bits, for
every `ADDR_W`. -/
def Obligations.StepKeepsAddressWidth : Prop :=
  ∀ s t : State, AddressInv s → step s = .next t → AddressInv t

/-- R11, R34: from a state that meets the handle's invariant, no command reads an unwritten `LEN` or `OFFSET`: whatever such a
register is given, the command answers the same, and leaves it so unless it writes it. -/
def Obligations.HandleNeverReadUnwritten : Prop :=
  ∀ (i : Instr) (s : State) (r : Reg Half), HandleInv s →
    (s.len = .unwritten → exec i { s with len := r } =
      mapNext (fun t => if t.len = .unwritten then { t with len := r } else t) (exec i s)) ∧
    (s.offset = .unwritten → exec i { s with offset := r } =
      mapNext (fun t => if t.offset = .unwritten then { t with offset := r } else t) (exec i s))

/-! ### Streams -/

/-- R116: chunking invariance. Two feeds of the same stream that have reached the same byte have made the same reports,
written the same bytes and left the same handle, however they cut it into chunks. -/
def Obligations.ChunkingInvariance : Prop :=
  ∀ (out : Nat) (cap : Half) (start stop cursor : Nat) (s u v : State) (ru rv : List Report),
    out < 2 ^ s.platform.addrW → stop ≤ 2 ^ s.platform.addrW → s.platform.WellFormed = true → HandleInv s →
    Feeds out cap start stop s cursor ru u → Feeds out cap start stop s cursor rv v →
    ru = rv ∧ u.mem = v.mem ∧ u.decoder = v.decoder ∧ u.len = v.len ∧ u.offset = v.offset

/-- R120: at the second reserved byte, stream index 11 of a prefixed frame, a length from `ETH_MIN_LEN` to `cap` is taken and
any other reports `INVALID_LENGTH`. -/
def Obligations.PrefixedHeaderJudgesLength : Prop :=
  ∀ (out : Nat) (cap : Half) (start stop : Nat) (s u : State) (r : List Report),
    stop ≤ 2 ^ s.platform.addrW → s.platform.WellFormed = true → s.decoder = .pfx0 →
    Memory.read s.mem start = 0x00#8 → Memory.read s.mem (start + 1) = 0x00#8 →
    (∀ k < 4, Memory.read s.mem (start + 4 + k) = 0xAA#8) →
    Feeds out cap start stop s (start + 12) r u →
    ∃ l : Half,
      l.toNat = (Memory.read s.mem (start + 8)).toNat + 2 ^ 8 * (Memory.read s.mem (start + 9)).toNat ∧
      u.len = .written l ∧ u.mem = s.mem ∧
      if s.platform.ethMinLen ≤ l.toNat ∧ l.toNat ≤ cap.toNat then
        r = [] ∧ u.decoder = .gath ∧ u.offset = .written 0#16
      else r = [{ address := start + 11, kind := .invalidLength, frame := 0#16 }] ∧ u.decoder = .pfx0

/-- R118 (a): noise that holds no zero byte, fed from `PFX0`, leaves the decoder in `PFX0` with nothing reported. -/
def Obligations.NonzeroNoiseIsSkipped : Prop :=
  ∀ (out : Nat) (cap : Half) (start stop cursor : Nat) (s u : State) (r : List Report),
    stop ≤ 2 ^ s.platform.addrW → s.decoder = .pfx0 → (∀ a, start ≤ a → a < cursor → Memory.read s.mem a ≠ 0x00#8) →
    Feeds out cap start stop s cursor r u → r = [] ∧ u.decoder = .pfx0 ∧ u.mem = s.mem

/-- R117: round trip. A prefixed envelope of payload length `l` and version `v` whose length word survives packing, fed from
`PFX0` in any chunking to an output buffer apart from it, never faults or sticks, and reports exactly one frame, of length
`l`, at its last byte, with the payload in the output buffer. -/
def Obligations.PrefixedFrameRoundTrip : Prop :=
  ∀ (out : Nat) (cap l : Half) (v : Word) (start : Nat) (s : State),
    start + l.toNat + 14 ≤ 2 ^ s.platform.addrW → s.platform.WellFormed = true → s.Live → s.decoder = .pfx0 →
    v.toNat < 2 ^ 19 → (v = 0#32 ∨ v.toNat % 8 = l.toNat / 2 ^ 13) →
    s.platform.ethMinLen ≤ l.toNat → l.toNat ≤ cap.toNat →
    Memory.read s.mem start = 0x00#8 → Memory.read s.mem (start + 1) = 0x00#8 →
    (∀ k < 8, (headerBytes l v)[k]? = some (Memory.read s.mem (start + 4 + k))) →
    Memory.read s.mem (start + 12 + l.toNat) = 0x55#8 → Memory.read s.mem (start + 13 + l.toNat) = 0x55#8 →
    (∀ k < l.toNat + 14, memAdmit s.platform (start + k) .read = true) →
    (∀ k < l.toNat, memAdmit s.platform (out + k) .write = true) →
    (out + l.toNat ≤ start ∨ start + l.toNat + 14 ≤ out) →
    (∀ (cursor n : Nat) (r : List Report) (u : State),
      Feeds out cap start (start + l.toNat + 14) s cursor r u → 1 ≤ n → cursor + n ≤ start + l.toNat + 14 →
      ∃ t, exec .decode (presentChunk out cap cursor n u) = .next t ∧ t.Live) ∧
    (∃ r u, Feeds out cap start (start + l.toNat + 14) s (start + l.toNat + 14) r u) ∧
    ∀ (r : List Report) (u : State), Feeds out cap start (start + l.toNat + 14) s (start + l.toNat + 14) r u →
      r = [{ address := start + l.toNat + 13, kind := .frame, frame := l }] ∧ u.decoder = .pfx0 ∧
      (∀ k < l.toNat, Memory.read u.mem (out + k) = Memory.read s.mem (start + 12 + k)) ∧
      ∀ x, x < out ∨ out + l.toNat ≤ x → Memory.read u.mem x = Memory.read s.mem x
end

