-- ==== Sys2Proof/Laws/Memory.lean ====
section
/-! SUPPORT. The laws of caller memory: what a read sees after a write, that every operation keeps the canonical form,
and that equal contents are equal data. -/

namespace Sys2Proof.Machine

/-! ### Reading after writing -/

theorem Memory.read_erase (m : Memory) (a x : Nat) :
    Memory.read (Memory.erase m a) x = if x = a then Config.unlistedByte else Memory.read m x := by
  induction m with
  | nil => simp [Memory.erase, Memory.read]
  | cons c m ih =>
    unfold Memory.erase at ih ⊢
    by_cases hc : c.1 = a
    · rw [List.filter_cons_of_neg (by simp [hc]), ih, Memory.read]
      by_cases hx : x = a
      · simp [hx]
      · have : c.1 ≠ x := by omega
        simp [hx, this]
    · rw [List.filter_cons_of_pos (by simp [hc]), Memory.read, Memory.read, ih]
      by_cases hx : x = a
      · have : c.1 ≠ x := by omega
        simp [hx, hc]
      · simp [hx]

theorem Memory.read_insert (m : Memory) (a x : Nat) (v : Byte) (absent : ∀ c ∈ m, c.1 ≠ a) :
    Memory.read (Memory.insert m a v) x = if x = a then v else Memory.read m x := by
  induction m with
  | nil => simp [Memory.insert, Memory.read, eq_comm]
  | cons c m ih =>
    have hc : c.1 ≠ a := absent c (by simp)
    have ih := ih fun d hd => absent d (by simp [hd])
    unfold Memory.insert
    split
    · simp [Memory.read, eq_comm]
    · rw [Memory.read, Memory.read, ih]
      by_cases hx : x = a
      · simp [hx, hc]
      · simp [hx]

theorem Memory.erase_absent (m : Memory) (a : Nat) : ∀ c ∈ Memory.erase m a, c.1 ≠ a := by
  intro c hc
  simpa using (List.mem_filter.mp hc).2

/-- A write changes what its own address reads as, and no other. -/
theorem Memory.read_write (m : Memory) (a x : Nat) (v : Byte) :
    Memory.read (Memory.write m a v) x = if x = a then v else Memory.read m x := by
  unfold Memory.write
  split
  case isTrue hv => rw [Memory.read_erase, hv]
  case isFalse => rw [Memory.read_insert _ _ _ _ (Memory.erase_absent m a), Memory.read_erase]; split <;> rfl

@[simp] theorem Memory.read_write_same (m : Memory) (a : Nat) (v : Byte) :
    Memory.read (Memory.write m a v) a = v := by simp [Memory.read_write]

@[simp] theorem Memory.read_write_other (m : Memory) {a x : Nat} (v : Byte) (h : x ≠ a) :
    Memory.read (Memory.write m a v) x = Memory.read m x := by simp [Memory.read_write, h]

/-- What a run of byte writes leaves: its own bytes inside, everything else outside. -/
theorem Memory.read_writeBytes (m : Memory) (a : Nat) (vs : List Byte) (x : Nat) :
    Memory.read (Memory.writeBytes m a vs) x =
      if h : a ≤ x ∧ x < a + vs.length then vs[x - a]'(by omega) else Memory.read m x := by
  induction vs generalizing m a with
  | nil => simp [Memory.writeBytes]
  | cons v vs ih =>
    rw [Memory.writeBytes, ih]
    by_cases hx : x = a
    · subst hx
      simp
    · by_cases hin : a ≤ x ∧ x < a + (v :: vs).length
      · have h1 : a + 1 ≤ x ∧ x < a + 1 + vs.length := by simp at hin; omega
        have h2 : x - a = (x - (a + 1)) + 1 := by omega
        rw [dif_pos h1, dif_pos hin]
        simp only [h2, List.getElem_cons_succ]
      · have h1 : ¬(a + 1 ≤ x ∧ x < a + 1 + vs.length) := by simp at hin; omega
        rw [dif_neg h1, dif_neg hin, Memory.read_write_other _ _ hx]

/-- What a copy between ranges that do not meet leaves: the source's bytes inside the destination, everything else
outside (41_decoder.md R111, corner case (f)). -/
theorem Memory.read_copy (m : Memory) (src dst n : Nat) (apart : rangesMeet src dst n = false) (x : Nat) :
    Memory.read (Memory.copy m src dst n) x =
      if dst ≤ x ∧ x < dst + n then Memory.read m (src + (x - dst)) else Memory.read m x := by
  induction n generalizing m src dst with
  | zero => simp [Memory.copy]
  | succ n ih =>
    have hap : ¬(src < dst + (n + 1) ∧ dst < src + (n + 1)) := by simpa [rangesMeet] using apart
    have hap' : rangesMeet (src + 1) (dst + 1) n = false := by simp [rangesMeet]; omega
    rw [Memory.copy, ih _ _ _ hap']
    by_cases hx : x = dst
    · subst hx; simp
    · by_cases hin : dst ≤ x ∧ x < dst + (n + 1)
      · have h1 : dst + 1 ≤ x ∧ x < dst + 1 + n := by omega
        have h2 : src + 1 + (x - (dst + 1)) = src + (x - dst) := by omega
        have h3 : src + (x - dst) ≠ dst := by omega
        rw [if_pos h1, if_pos hin, h2, Memory.read_write_other _ _ h3]
      · have h1 : ¬(dst + 1 ≤ x ∧ x < dst + 1 + n) := by omega
        rw [if_neg h1, if_neg hin, Memory.read_write_other _ _ hx]

/-! ### The canonical form -/

/-- The canonical form as a pairwise order and a condition on each cell. -/
theorem Memory.wf_iff (m : Memory) :
    Memory.wf m = true ↔ m.Pairwise (fun c d => c.1 < d.1) ∧ ∀ c ∈ m, c.2 ≠ Config.unlistedByte := by
  induction m with
  | nil => simp [Memory.wf]
  | cons c m ih =>
    cases m with
    | nil => simp [Memory.wf]
    | cons d m =>
      simp only [Memory.wf, Bool.and_eq_true, decide_eq_true_eq, bne_iff_ne, ih, List.pairwise_cons, List.mem_cons,
        forall_eq_or_imp]
      constructor
      · rintro ⟨⟨hc, hcd⟩, ⟨hd, hm⟩, hv⟩
        exact ⟨⟨⟨hcd, fun e he => hcd.trans (hd e he)⟩, hd, hm⟩, hc, hv⟩
      · rintro ⟨⟨⟨hcd, _⟩, hd, hm⟩, hc, hv⟩
        exact ⟨⟨hc, hcd⟩, ⟨hd, hm⟩, hv⟩

theorem Memory.wf_erase {m : Memory} (a : Nat) (h : Memory.wf m = true) : Memory.wf (Memory.erase m a) = true := by
  rw [Memory.wf_iff] at h ⊢
  exact ⟨h.1.filter _, fun c hc => h.2 c (List.mem_filter.mp hc).1⟩

theorem Memory.mem_insert {m : Memory} {a : Nat} {v : Byte} {c : Host.Cell} :
    c ∈ Memory.insert m a v ↔ c = (a, v) ∨ c ∈ m := by
  induction m with
  | nil => simp [Memory.insert]
  | cons d m ih =>
    unfold Memory.insert
    split
    · simp
    · simp [ih]; tauto

theorem Memory.wf_insert {m : Memory} {a : Nat} {v : Byte} (h : Memory.wf m = true) (absent : ∀ c ∈ m, c.1 ≠ a)
    (hv : v ≠ Config.unlistedByte) : Memory.wf (Memory.insert m a v) = true := by
  rw [Memory.wf_iff] at h ⊢
  refine ⟨?_, fun c hc => ?_⟩
  · induction m with
    | nil => simp [Memory.insert]
    | cons d m ih =>
      have hd := List.pairwise_cons.mp h.1
      unfold Memory.insert
      split
      case isTrue had =>
        refine List.pairwise_cons.mpr ⟨fun c hc => ?_, h.1⟩
        rcases List.mem_cons.mp hc with rfl | hc
        · exact had
        · exact had.trans (hd.1 c hc)
      case isFalse had =>
        refine List.pairwise_cons.mpr ⟨fun c hc => ?_, ?_⟩
        · rcases Memory.mem_insert.mp hc with rfl | hc
          · have := absent d (by simp)
            simp only
            omega
          · exact hd.1 c hc
        · exact ih ⟨hd.2, fun c hc => h.2 c (by simp [hc])⟩ fun c hc => absent c (by simp [hc])
  · rcases Memory.mem_insert.mp hc with rfl | hc
    · exact hv
    · exact h.2 c hc

/-- A write keeps the canonical form. -/
theorem Memory.wf_write {m : Memory} (a : Nat) (v : Byte) (h : Memory.wf m = true) :
    Memory.wf (Memory.write m a v) = true := by
  unfold Memory.write
  split
  · exact Memory.wf_erase a h
  · exact Memory.wf_insert (Memory.wf_erase a h) (Memory.erase_absent m a) ‹_›

theorem Memory.wf_writeBytes {m : Memory} (a : Nat) (vs : List Byte) (h : Memory.wf m = true) :
    Memory.wf (Memory.writeBytes m a vs) = true := by
  induction vs generalizing m a with
  | nil => exact h
  | cons v vs ih => exact ih _ (Memory.wf_write a v h)

theorem Memory.wf_copy {m : Memory} (src dst n : Nat) (h : Memory.wf m = true) :
    Memory.wf (Memory.copy m src dst n) = true := by
  induction n generalizing m src dst with
  | zero => exact h
  | succ n ih => exact ih _ _ (Memory.wf_write dst _ h)

/-! ### Which addresses are listed -/

theorem Memory.listed_write {m : Memory} {a : Nat} {v : Byte} {c : Host.Cell} (h : c ∈ Memory.write m a v) :
    c.1 = a ∨ c ∈ m := by
  unfold Memory.write at h
  split at h
  · exact .inr (List.mem_filter.mp h).1
  · rcases Memory.mem_insert.mp h with rfl | h
    · exact .inl rfl
    · exact .inr (List.mem_filter.mp h).1

theorem Memory.listed_writeBytes {m : Memory} {a : Nat} {vs : List Byte} {c : Host.Cell}
    (h : c ∈ Memory.writeBytes m a vs) : (a ≤ c.1 ∧ c.1 < a + vs.length) ∨ c ∈ m := by
  induction vs generalizing m a with
  | nil => exact .inr h
  | cons v vs ih =>
    rcases ih h with h | h
    · simp; omega
    · rcases Memory.listed_write h with h | h
      · simp; omega
      · exact .inr h

theorem Memory.listed_copy {m : Memory} {src dst n : Nat} {c : Host.Cell} (h : c ∈ Memory.copy m src dst n) :
    (dst ≤ c.1 ∧ c.1 < dst + n) ∨ c ∈ m := by
  induction n generalizing m src dst with
  | zero => exact .inr h
  | succ n ih =>
    rcases ih h with h | h
    · omega
    · rcases Memory.listed_write h with h | h
      · omega
      · exact .inr h

/-! ### Equal contents are equal data -/

/-- A cell of a canonical memory is what its address reads as. -/
theorem Memory.read_of_mem {m : Memory} (h : Memory.wf m = true) {c : Host.Cell} (hc : c ∈ m) :
    Memory.read m c.1 = c.2 := by
  induction m with
  | nil => cases hc
  | cons d m ih =>
    rw [Memory.wf_iff] at h
    obtain ⟨hd, hp⟩ := List.pairwise_cons.mp h.1
    rcases List.mem_cons.mp hc with rfl | hc
    · simp [Memory.read]
    · have hne : d.1 ≠ c.1 := (hd c hc).ne
      rw [Memory.read, if_neg hne]
      exact ih ((Memory.wf_iff m).mpr ⟨hp, fun e he => h.2 e (by simp [he])⟩) hc

/-- An address reads as a value other than the unlisted byte only where a cell holds that value. -/
theorem Memory.mem_of_read {m : Memory} {a : Nat} (h : Memory.read m a ≠ Config.unlistedByte) :
    (a, Memory.read m a) ∈ m := by
  induction m with
  | nil => exact absurd rfl h
  | cons d m ih =>
    rw [Memory.read] at h ⊢
    split
    case isTrue hd => simp [← hd]
    case isFalse hd => rw [if_neg hd] at h; exact List.mem_cons_of_mem _ (ih h)

/-- Canonical memories with the same contents are the same list. -/
theorem Memory.ext {m n : Memory} (hm : Memory.wf m = true) (hn : Memory.wf n = true)
    (h : ∀ a, Memory.read m a = Memory.read n a) : m = n := by
  have sub : ∀ {p q : Memory}, Memory.wf p = true → (∀ a, Memory.read p a = Memory.read q a) → ∀ c ∈ p, c ∈ q := by
    intro p q hp hpq c hc
    have hr := Memory.read_of_mem hp hc
    have hne := ((Memory.wf_iff p).mp hp).2 c hc
    have := Memory.mem_of_read (m := q) (a := c.1) (by rw [← hpq, hr]; exact hne)
    rwa [← hpq, hr] at this
  have nodup : ∀ {p : Memory}, Memory.wf p = true → p.Nodup := fun hp =>
    ((Memory.wf_iff _).mp hp).1.imp fun hlt heq => by simp [heq] at hlt
  refine List.Perm.eq_of_pairwise (le := fun c d : Host.Cell => c.1 < d.1) (fun c d _ _ h1 h2 => by omega)
    ((Memory.wf_iff m).mp hm).1 ((Memory.wf_iff n).mp hn).1 ?_
  exact (List.perm_ext_iff_of_nodup (nodup hm) (nodup hn)).mpr fun c =>
    ⟨sub hm h c, sub hn (fun a => (h a).symm) c⟩

end Sys2Proof.Machine
end

