-- ==== Sys2Proof/Laws/State.lean ====
section
/-! SUPPORT. One lemma per field per update: what each named update of the state leaves in each field, so that no
proof unfolds a record update. -/

namespace Sys2Proof.Machine

/-! ### `recordFault` -/

@[simp] theorem recordFault_decoder (c : FaultCode) (s : State) : (recordFault c s).decoder = s.decoder := rfl
@[simp] theorem recordFault_len (c : FaultCode) (s : State) : (recordFault c s).len = s.len := rfl
@[simp] theorem recordFault_offset (c : FaultCode) (s : State) : (recordFault c s).offset = s.offset := rfl
@[simp] theorem recordFault_cmd (c : FaultCode) (s : State) : (recordFault c s).cmd = s.cmd := rfl
@[simp] theorem recordFault_argBuf (c : FaultCode) (s : State) : (recordFault c s).argBuf = s.argBuf := rfl
@[simp] theorem recordFault_argLen (c : FaultCode) (s : State) : (recordFault c s).argLen = s.argLen := rfl
@[simp] theorem recordFault_argVer (c : FaultCode) (s : State) : (recordFault c s).argVer = s.argVer := rfl
@[simp] theorem recordFault_argQid (c : FaultCode) (s : State) : (recordFault c s).argQid = s.argQid := rfl
@[simp] theorem recordFault_argIn (c : FaultCode) (s : State) : (recordFault c s).argIn = s.argIn := rfl
@[simp] theorem recordFault_argInlen (c : FaultCode) (s : State) : (recordFault c s).argInlen = s.argInlen := rfl
@[simp] theorem recordFault_resLen (c : FaultCode) (s : State) : (recordFault c s).resLen = s.resLen := rfl
@[simp] theorem recordFault_resKind (c : FaultCode) (s : State) : (recordFault c s).resKind = s.resKind := rfl
@[simp] theorem recordFault_resFrame (c : FaultCode) (s : State) : (recordFault c s).resFrame = s.resFrame := rfl
@[simp] theorem recordFault_resCons (c : FaultCode) (s : State) : (recordFault c s).resCons = s.resCons := rfl
@[simp] theorem recordFault_fault (c : FaultCode) (s : State) : (recordFault c s).fault = c := rfl
@[simp] theorem recordFault_mem (c : FaultCode) (s : State) : (recordFault c s).mem = s.mem := rfl
@[simp] theorem recordFault_platform (c : FaultCode) (s : State) : (recordFault c s).platform = s.platform := rfl
@[simp] theorem recordFault_host (c : FaultCode) (s : State) : (recordFault c s).host = s.host := rfl

/-! ### `resync` -/

@[simp] theorem resync_decoder (s : State) : (resync s).decoder = .pfx0 := rfl
@[simp] theorem resync_len (s : State) : (resync s).len = s.len := rfl
@[simp] theorem resync_offset (s : State) : (resync s).offset = s.offset := rfl
@[simp] theorem resync_cmd (s : State) : (resync s).cmd = s.cmd := rfl
@[simp] theorem resync_argBuf (s : State) : (resync s).argBuf = s.argBuf := rfl
@[simp] theorem resync_argLen (s : State) : (resync s).argLen = s.argLen := rfl
@[simp] theorem resync_argVer (s : State) : (resync s).argVer = s.argVer := rfl
@[simp] theorem resync_argQid (s : State) : (resync s).argQid = s.argQid := rfl
@[simp] theorem resync_argIn (s : State) : (resync s).argIn = s.argIn := rfl
@[simp] theorem resync_argInlen (s : State) : (resync s).argInlen = s.argInlen := rfl
@[simp] theorem resync_resLen (s : State) : (resync s).resLen = s.resLen := rfl
@[simp] theorem resync_resKind (s : State) : (resync s).resKind = s.resKind := rfl
@[simp] theorem resync_resFrame (s : State) : (resync s).resFrame = s.resFrame := rfl
@[simp] theorem resync_resCons (s : State) : (resync s).resCons = s.resCons := rfl
@[simp] theorem resync_fault (s : State) : (resync s).fault = s.fault := rfl
@[simp] theorem resync_mem (s : State) : (resync s).mem = s.mem := rfl
@[simp] theorem resync_platform (s : State) : (resync s).platform = s.platform := rfl
@[simp] theorem resync_host (s : State) : (resync s).host = s.host := rfl

/-! ### `setDecodeResult` -/

@[simp] theorem setDecodeResult_decoder (k : ResultKind) (f : Half) (n : Nat) (s : State) : (setDecodeResult k f n s).decoder = s.decoder := rfl
@[simp] theorem setDecodeResult_len (k : ResultKind) (f : Half) (n : Nat) (s : State) : (setDecodeResult k f n s).len = s.len := rfl
@[simp] theorem setDecodeResult_offset (k : ResultKind) (f : Half) (n : Nat) (s : State) : (setDecodeResult k f n s).offset = s.offset := rfl
@[simp] theorem setDecodeResult_cmd (k : ResultKind) (f : Half) (n : Nat) (s : State) : (setDecodeResult k f n s).cmd = s.cmd := rfl
@[simp] theorem setDecodeResult_argBuf (k : ResultKind) (f : Half) (n : Nat) (s : State) : (setDecodeResult k f n s).argBuf = s.argBuf := rfl
@[simp] theorem setDecodeResult_argLen (k : ResultKind) (f : Half) (n : Nat) (s : State) : (setDecodeResult k f n s).argLen = s.argLen := rfl
@[simp] theorem setDecodeResult_argVer (k : ResultKind) (f : Half) (n : Nat) (s : State) : (setDecodeResult k f n s).argVer = s.argVer := rfl
@[simp] theorem setDecodeResult_argQid (k : ResultKind) (f : Half) (n : Nat) (s : State) : (setDecodeResult k f n s).argQid = s.argQid := rfl
@[simp] theorem setDecodeResult_argIn (k : ResultKind) (f : Half) (n : Nat) (s : State) : (setDecodeResult k f n s).argIn = s.argIn := rfl
@[simp] theorem setDecodeResult_argInlen (k : ResultKind) (f : Half) (n : Nat) (s : State) : (setDecodeResult k f n s).argInlen = s.argInlen := rfl
@[simp] theorem setDecodeResult_resLen (k : ResultKind) (f : Half) (n : Nat) (s : State) : (setDecodeResult k f n s).resLen = s.resLen := rfl
@[simp] theorem setDecodeResult_resKind (k : ResultKind) (f : Half) (n : Nat) (s : State) : (setDecodeResult k f n s).resKind = .written k := rfl
@[simp] theorem setDecodeResult_resFrame (k : ResultKind) (f : Half) (n : Nat) (s : State) : (setDecodeResult k f n s).resFrame = .written f := rfl
@[simp] theorem setDecodeResult_resCons (k : ResultKind) (f : Half) (n : Nat) (s : State) : (setDecodeResult k f n s).resCons = .written n := rfl
@[simp] theorem setDecodeResult_fault (k : ResultKind) (f : Half) (n : Nat) (s : State) : (setDecodeResult k f n s).fault = s.fault := rfl
@[simp] theorem setDecodeResult_mem (k : ResultKind) (f : Half) (n : Nat) (s : State) : (setDecodeResult k f n s).mem = s.mem := rfl
@[simp] theorem setDecodeResult_platform (k : ResultKind) (f : Half) (n : Nat) (s : State) : (setDecodeResult k f n s).platform = s.platform := rfl
@[simp] theorem setDecodeResult_host (k : ResultKind) (f : Half) (n : Nat) (s : State) : (setDecodeResult k f n s).host = s.host := rfl

/-! ### `setEncodeResult` -/

@[simp] theorem setEncodeResult_decoder (n : Half) (s : State) : (setEncodeResult n s).decoder = s.decoder := rfl
@[simp] theorem setEncodeResult_len (n : Half) (s : State) : (setEncodeResult n s).len = s.len := rfl
@[simp] theorem setEncodeResult_offset (n : Half) (s : State) : (setEncodeResult n s).offset = s.offset := rfl
@[simp] theorem setEncodeResult_cmd (n : Half) (s : State) : (setEncodeResult n s).cmd = s.cmd := rfl
@[simp] theorem setEncodeResult_argBuf (n : Half) (s : State) : (setEncodeResult n s).argBuf = s.argBuf := rfl
@[simp] theorem setEncodeResult_argLen (n : Half) (s : State) : (setEncodeResult n s).argLen = s.argLen := rfl
@[simp] theorem setEncodeResult_argVer (n : Half) (s : State) : (setEncodeResult n s).argVer = s.argVer := rfl
@[simp] theorem setEncodeResult_argQid (n : Half) (s : State) : (setEncodeResult n s).argQid = s.argQid := rfl
@[simp] theorem setEncodeResult_argIn (n : Half) (s : State) : (setEncodeResult n s).argIn = s.argIn := rfl
@[simp] theorem setEncodeResult_argInlen (n : Half) (s : State) : (setEncodeResult n s).argInlen = s.argInlen := rfl
@[simp] theorem setEncodeResult_resLen (n : Half) (s : State) : (setEncodeResult n s).resLen = .written n := rfl
@[simp] theorem setEncodeResult_resKind (n : Half) (s : State) : (setEncodeResult n s).resKind = s.resKind := rfl
@[simp] theorem setEncodeResult_resFrame (n : Half) (s : State) : (setEncodeResult n s).resFrame = s.resFrame := rfl
@[simp] theorem setEncodeResult_resCons (n : Half) (s : State) : (setEncodeResult n s).resCons = s.resCons := rfl
@[simp] theorem setEncodeResult_fault (n : Half) (s : State) : (setEncodeResult n s).fault = s.fault := rfl
@[simp] theorem setEncodeResult_mem (n : Half) (s : State) : (setEncodeResult n s).mem = s.mem := rfl
@[simp] theorem setEncodeResult_platform (n : Half) (s : State) : (setEncodeResult n s).platform = s.platform := rfl
@[simp] theorem setEncodeResult_host (n : Half) (s : State) : (setEncodeResult n s).host = s.host := rfl

/-! ### `powerOnReset` -/

@[simp] theorem powerOnReset_decoder (s : State) : (powerOnReset s).decoder = State.reset.decoder := rfl
@[simp] theorem powerOnReset_len (s : State) : (powerOnReset s).len = State.reset.len := rfl
@[simp] theorem powerOnReset_offset (s : State) : (powerOnReset s).offset = State.reset.offset := rfl
@[simp] theorem powerOnReset_cmd (s : State) : (powerOnReset s).cmd = State.reset.cmd := rfl
@[simp] theorem powerOnReset_argBuf (s : State) : (powerOnReset s).argBuf = State.reset.argBuf := rfl
@[simp] theorem powerOnReset_argLen (s : State) : (powerOnReset s).argLen = State.reset.argLen := rfl
@[simp] theorem powerOnReset_argVer (s : State) : (powerOnReset s).argVer = State.reset.argVer := rfl
@[simp] theorem powerOnReset_argQid (s : State) : (powerOnReset s).argQid = State.reset.argQid := rfl
@[simp] theorem powerOnReset_argIn (s : State) : (powerOnReset s).argIn = State.reset.argIn := rfl
@[simp] theorem powerOnReset_argInlen (s : State) : (powerOnReset s).argInlen = State.reset.argInlen := rfl
@[simp] theorem powerOnReset_resLen (s : State) : (powerOnReset s).resLen = State.reset.resLen := rfl
@[simp] theorem powerOnReset_resKind (s : State) : (powerOnReset s).resKind = State.reset.resKind := rfl
@[simp] theorem powerOnReset_resFrame (s : State) : (powerOnReset s).resFrame = State.reset.resFrame := rfl
@[simp] theorem powerOnReset_resCons (s : State) : (powerOnReset s).resCons = State.reset.resCons := rfl
@[simp] theorem powerOnReset_fault (s : State) : (powerOnReset s).fault = State.reset.fault := rfl
@[simp] theorem powerOnReset_mem (s : State) : (powerOnReset s).mem = s.mem := rfl
@[simp] theorem powerOnReset_platform (s : State) : (powerOnReset s).platform = s.platform := rfl
@[simp] theorem powerOnReset_host (s : State) : (powerOnReset s).host = s.host := rfl

/-! ### `writeOperand`: fields no operand write touches -/

@[simp] theorem writeOperand_decoder (o : OperandWrite) (s : State) : (writeOperand o s).decoder = s.decoder := by cases o <;> rfl
@[simp] theorem writeOperand_len (o : OperandWrite) (s : State) : (writeOperand o s).len = s.len := by cases o <;> rfl
@[simp] theorem writeOperand_offset (o : OperandWrite) (s : State) : (writeOperand o s).offset = s.offset := by cases o <;> rfl
@[simp] theorem writeOperand_cmd (o : OperandWrite) (s : State) : (writeOperand o s).cmd = s.cmd := by cases o <;> rfl
@[simp] theorem writeOperand_resLen (o : OperandWrite) (s : State) : (writeOperand o s).resLen = s.resLen := by cases o <;> rfl
@[simp] theorem writeOperand_resKind (o : OperandWrite) (s : State) : (writeOperand o s).resKind = s.resKind := by cases o <;> rfl
@[simp] theorem writeOperand_resFrame (o : OperandWrite) (s : State) : (writeOperand o s).resFrame = s.resFrame := by cases o <;> rfl
@[simp] theorem writeOperand_resCons (o : OperandWrite) (s : State) : (writeOperand o s).resCons = s.resCons := by cases o <;> rfl
@[simp] theorem writeOperand_fault (o : OperandWrite) (s : State) : (writeOperand o s).fault = s.fault := by cases o <;> rfl
@[simp] theorem writeOperand_mem (o : OperandWrite) (s : State) : (writeOperand o s).mem = s.mem := by cases o <;> rfl
@[simp] theorem writeOperand_platform (o : OperandWrite) (s : State) : (writeOperand o s).platform = s.platform := by cases o <;> rfl
@[simp] theorem writeOperand_host (o : OperandWrite) (s : State) : (writeOperand o s).host = s.host := by cases o <;> rfl
end Sys2Proof.Machine
end

