-- ==== Sys2Proof/Laws/Ops.lean ====
section
/-! SUPPORT. For each shared operation, everything it can do when it answers a next state; the inversion of a command,
of a `DECODE` and of a step. Provers cite these and do not unfold the operations. -/

namespace Sys2Proof.Machine

/-! ### Operands, handle registers, admission -/

@[simp] theorem withRegister_unwritten {α : Type} (s : State) (k : α → Answer) :
    withRegister .unwritten s k = .next (recordFault .unwrittenArg s) := rfl

@[simp] theorem withRegister_written {α : Type} (v : α) (s : State) (k : α → Answer) :
    withRegister (.written v) s k = k v := rfl

@[simp] theorem whenAdmitted_true (k : Answer) : whenAdmitted true k = k := rfl

@[simp] theorem whenAdmitted_false (k : Answer) : whenAdmitted false k = .fault .notAdmitted := rfl

theorem withRegister_next {α : Type} {r : Reg α} {s t : State} {k : α → Answer} (h : withRegister r s k = .next t) :
    (r = .unwritten ∧ t = recordFault .unwrittenArg s) ∨ ∃ v, r = .written v ∧ k v = .next t := by
  cases r with
  | unwritten => exact .inl ⟨rfl, (Host.Outcome.next.inj h).symm⟩
  | written v => exact .inr ⟨v, rfl, h⟩

theorem whenAdmitted_next {ok : Bool} {k : Answer} {t : State} (h : whenAdmitted ok k = .next t) :
    ok = true ∧ k = .next t := by
  cases ok with
  | false => cases h
  | true => exact ⟨rfl, h⟩

theorem withChunkByte_next {src : Nat} {s t : State} {k : Byte → Answer} (h : withChunkByte src s k = .next t) :
    memAdmit s.platform src .read = true ∧ k (Memory.read s.mem src) = .next t :=
  whenAdmitted_next h

theorem withChunkByte_admitted {src : Nat} {s : State} (k : Byte → Answer)
    (h : memAdmit s.platform src .read = true) : withChunkByte src s k = k (Memory.read s.mem src) := by
  simp [withChunkByte, h]

theorem withChunkByte_stuck {src : Nat} {s : State} (k : Byte → Answer)
    (h : memAdmit s.platform src .read = false) : withChunkByte src s k = .fault .notAdmitted := by
  simp [withChunkByte, h]

theorem memAdmitAll_iff {p : Config.Platform} {kind : Config.AccessKind} {base n : Nat} :
    memAdmitAll p kind base n = true ↔ ∀ i < n, memAdmit p (base + i) kind = true := by
  simp [memAdmitAll]

theorem memAdmit_lt {p : Config.Platform} {a : Nat} {kind : Config.AccessKind} (h : memAdmit p a kind = true) :
    a < 2 ^ p.addrW := by
  simp only [memAdmit, Bool.and_eq_true, decide_eq_true_eq] at h
  exact h.1

/-- A value of at most `ADDR_W` bits is kept whole. -/
theorem addrBits_of_lt {p : Config.Platform} {v : Nat} (h : v < 2 ^ p.addrW) : p.addrBits v = v := Nat.mod_eq_of_lt h

/-- What an `ADDR_W`-bit register takes is an `ADDR_W`-bit value. -/
theorem addrBits_lt (p : Config.Platform) (v : Nat) : p.addrBits v < 2 ^ p.addrW :=
  Nat.mod_lt v (Nat.two_pow_pos p.addrW)

/-- Two ranges of `n` bytes meet exactly when they share an address (20_memory.md R52). -/
theorem rangesMeet_iff {a b n : Nat} : rangesMeet a b n = true ↔ ∃ i < n, ∃ j < n, a + i = b + j := by
  simp only [rangesMeet, decide_eq_true_eq]
  constructor
  · rintro ⟨h1, h2⟩
    by_cases hab : a ≤ b
    · exact ⟨b - a, by omega, 0, by omega, by omega⟩
    · exact ⟨0, by omega, a - b, by omega, by omega⟩
  · rintro ⟨i, hi, j, hj, h⟩
    omega

theorem rangesMeet_eq_false_iff {a b n : Nat} : rangesMeet a b n = false ↔ ∀ i < n, ∀ j < n, a + i ≠ b + j := by
  rw [← Bool.not_eq_true, rangesMeet_iff]
  push Not
  exact Iff.rfl

/-! ### Encoder commands -/

/-- Everything `emitBytes` can do: every byte was admitted, the bytes are written, and `RES_LEN` holds their number. -/
theorem emitBytes_next {buf : Nat} {bytes : List Byte} {s t : State} (h : emitBytes buf bytes s = .next t) :
    (∀ i < bytes.length, memAdmit s.platform (buf + i) .write = true) ∧
    t = setEncodeResult (BitVec.ofNat 16 bytes.length)
      { s with mem := Memory.writeBytes s.mem buf bytes } := by
  obtain ⟨hok, ht⟩ := whenAdmitted_next h
  exact ⟨memAdmitAll_iff.mp hok, (Host.Outcome.next.inj ht).symm⟩

/-- What an encoder command emits: the buffer and the bytes, when its operands are written and in range. -/
def emitted (i : Instr) (s : State) (buf : Nat) (bytes : List Byte) : Prop :=
  s.argBuf = .written buf ∧
  match i with
  | .createHeader => ∃ len ver, s.argLen = .written len ∧ s.argVer = .written ver ∧ ver.toNat < 2 ^ 19 ∧
      bytes = headerBytes len ver
  | .createFooter => bytes = footerBytes
  | .addQid => ∃ qid, s.argQid = .written qid ∧ bytes = qidBytes qid
  | .initDecoder => False
  | .decode => False

/-- Everything an encoder command can do when it answers a next state. -/
theorem execEncoder_next {i : Instr} {s t : State} (hi : i ≠ .initDecoder) (hd : i ≠ .decode)
    (h : exec i s = .next t) :
    (∃ c, c ≠ .none ∧ t = recordFault c s) ∨ ∃ buf bytes, emitted i s buf bytes ∧ emitBytes buf bytes s = .next t := by
  cases i with
  | createHeader =>
    obtain ⟨_, rfl⟩ | ⟨buf, hbuf, h⟩ := withRegister_next h
    · exact .inl ⟨_, by decide, rfl⟩
    obtain ⟨_, rfl⟩ | ⟨len, hlen, h⟩ := withRegister_next h
    · exact .inl ⟨_, by decide, rfl⟩
    obtain ⟨_, rfl⟩ | ⟨ver, hver, h⟩ := withRegister_next h
    · exact .inl ⟨_, by decide, rfl⟩
    split at h
    · exact .inl ⟨.versionRange, by decide, (Host.Outcome.next.inj h).symm⟩
    case isFalse hlt =>
      exact .inr ⟨buf, _, ⟨hbuf, len, ver, hlen, hver, by simpa [Config.verW] using hlt, rfl⟩, h⟩
  | createFooter =>
    obtain ⟨_, rfl⟩ | ⟨buf, hbuf, h⟩ := withRegister_next h
    · exact .inl ⟨_, by decide, rfl⟩
    exact .inr ⟨buf, _, ⟨hbuf, rfl⟩, h⟩
  | addQid =>
    obtain ⟨_, rfl⟩ | ⟨buf, hbuf, h⟩ := withRegister_next h
    · exact .inl ⟨_, by decide, rfl⟩
    obtain ⟨_, rfl⟩ | ⟨qid, hqid, h⟩ := withRegister_next h
    · exact .inl ⟨_, by decide, rfl⟩
    exact .inr ⟨buf, _, ⟨hbuf, qid, hqid, rfl⟩, h⟩
  | initDecoder => exact absurd rfl hi
  | decode => exact absurd rfl hd

/-! ### `DECODE` -/

/-- The registers a single-byte arm reads and finds unwritten: `ARG_LEN` in `RSV1` (41_decoder.md R110), and, in states no
run reaches, `LEN` or `OFFSET` (log 10). -/
def ArmUnwritten (s : State) : Prop :=
  s.decoder = .rsv1 ∧ s.argLen = .unwritten ∨ s.decoder ∈ [DecoderState.len1, .rsv1] ∧ s.len = .unwritten ∨
    s.decoder = .ft1 ∧ s.offset = .unwritten

/-- The effect of a completed `DECODE` outside `GATH`, on the byte `b` at `ARG_IN`: one case per row of the state machine
(41_decoder.md R104 to R110, R112, R113). -/
inductive ByteEffect (b : Byte) (s : State) : State → Prop where
  | zeroPrefix (d : DecoderState) (at_ : (s.decoder, d) ∈ [(DecoderState.pfx0, .pfx1), (.pfx1, DecoderState.pfx2)])
      (byte : b = 0x00#8) : ByteEffect b s (setDecodeResult .gather 0#16 1 { s with decoder := d })
  | nonzeroPrefix (at_ : s.decoder ∈ [DecoderState.pfx0, .pfx1]) (byte : b ≠ 0x00#8) :
      ByteEffect b s (setDecodeResult .gather 0#16 1 { s with decoder := .pfx0 })
  | skipped (d : DecoderState)
      (at_ : (s.decoder, d) ∈ [(DecoderState.pfx2, .pfx3), (.pfx3, .aa1), (.rsv0, DecoderState.rsv1)]) :
      ByteEffect b s (setDecodeResult .gather 0#16 1 { s with decoder := d })
  | preamble (d : DecoderState)
      (at_ : (s.decoder, d) ∈ [(DecoderState.aa1, .aa2), (.aa2, .aa3), (.aa3, .aa4), (.aa4, DecoderState.len0)])
      (byte : b = 0xAA#8) : ByteEffect b s (setDecodeResult .gather 0#16 1 { s with decoder := d })
  | noHeader (at_ : s.decoder ∈ [DecoderState.aa1, .aa2, .aa3, .aa4]) (byte : b ≠ 0xAA#8) :
      ByteEffect b s (setDecodeResult .noHeader 0#16 1 (resync s))
  | lengthLow (at_ : s.decoder = .len0) :
      ByteEffect b s
        (setDecodeResult .gather 0#16 1 { s with len := .written (b.setWidth 16), decoder := .len1 })
  | lengthHigh (len : Half) (at_ : s.decoder = .len1) (hlen : s.len = .written len) :
      ByteEffect b s (setDecodeResult .gather 0#16 1
        { s with len := .written (len ||| (b.setWidth 16 <<< 8)), decoder := .rsv0 })
  | invalidLength (cap len : Half) (at_ : s.decoder = .rsv1) (hcap : s.argLen = .written cap)
      (hlen : s.len = .written len) (bad : cap.toNat < len.toNat ∨ len.toNat < s.platform.ethMinLen) :
      ByteEffect b s (setDecodeResult .invalidLength 0#16 1 (resync s))
  | validLength (cap len : Half) (at_ : s.decoder = .rsv1) (hcap : s.argLen = .written cap)
      (hlen : s.len = .written len) (high : len.toNat ≤ cap.toNat) (low : s.platform.ethMinLen ≤ len.toNat) :
      ByteEffect b s (setDecodeResult .gather 0#16 1 { s with offset := .written 0#16, decoder := .gath })
  | footer (at_ : s.decoder = .ft0) (byte : b = 0x55#8) :
      ByteEffect b s (setDecodeResult .gather 0#16 1 { s with decoder := .ft1 })
  | complete (f : Half) (at_ : s.decoder = .ft1) (hoff : s.offset = .written f) (byte : b = 0x55#8) :
      ByteEffect b s (setDecodeResult .frame f 1 (resync s))
  | noTail (at_ : s.decoder ∈ [DecoderState.ft0, .ft1]) (byte : b ≠ 0x55#8) :
      ByteEffect b s (setDecodeResult .noTail 0#16 1 (resync s))

/-- The effect of a completed `DECODE` in `GATH` (41_decoder.md R111), with its operands, the handle and the count. -/
structure GatherEffect (src inlen : Nat) (s t : State) (out : Nat) (cap len off : Half) (n : Nat) : Prop where
  hout : s.argBuf = .written out
  hcap : s.argLen = .written cap
  hlen : s.len = .written len
  hoff : s.offset = .written off
  hn : n = min inlen (len.toNat - off.toNat)
  fits : off.toNat + n ≤ cap.toNat
  apart : rangesMeet src (out + off.toNat) n = false
  readable : ∀ i < n, memAdmit s.platform (src + i) .read = true
  writable : ∀ i < n, memAdmit s.platform (out + off.toNat + i) .write = true
  after : t = setDecodeResult .gather 0#16 n
    { s with
      mem := Memory.copy s.mem src (out + off.toNat) n
      offset := .written (BitVec.ofNat 16 (off.toNat + n))
      decoder := if off.toNat + n = len.toNat then .ft0 else .gath }

/-- Everything `DECODE` can do when it answers a next state and takes no fault. -/
inductive DecodeEffect (src inlen : Nat) (s t : State) : Prop where
  | byte (at_ : s.decoder ≠ .gath) (readable : memAdmit s.platform src .read = true)
      (effect : ByteEffect (Memory.read s.mem src) s t)
  | gather (at_ : s.decoder = .gath) (out : Nat) (cap len off : Half) (n : Nat)
      (effect : GatherEffect src inlen s t out cap len off n)

theorem armPrefix_next {d : DecoderState} {src : Nat} {s t : State}
    (at_ : (s.decoder, d) ∈ [(DecoderState.pfx0, .pfx1), (.pfx1, DecoderState.pfx2)])
    (h : armPrefix d src s = .next t) :
    memAdmit s.platform src .read = true ∧ ByteEffect (Memory.read s.mem src) s t := by
  obtain ⟨hr, h⟩ := withChunkByte_next h
  refine ⟨hr, ?_⟩
  split at h
  case isTrue hb => cases h; exact .zeroPrefix d at_ hb
  case isFalse hb => cases h; exact .nonzeroPrefix (by simp at at_ ⊢; tauto) hb

theorem armSkip_next {d : DecoderState} {src : Nat} {s t : State}
    (at_ : (s.decoder, d) ∈ [(DecoderState.pfx2, .pfx3), (.pfx3, .aa1), (.rsv0, DecoderState.rsv1)])
    (h : armSkip d src s = .next t) :
    memAdmit s.platform src .read = true ∧ ByteEffect (Memory.read s.mem src) s t := by
  obtain ⟨hr, h⟩ := withChunkByte_next h
  cases h
  exact ⟨hr, .skipped d at_⟩

theorem armPreamble_next {d : DecoderState} {src : Nat} {s t : State}
    (at_ : (s.decoder, d) ∈ [(DecoderState.aa1, .aa2), (.aa2, .aa3), (.aa3, .aa4), (.aa4, DecoderState.len0)])
    (h : armPreamble d src s = .next t) :
    memAdmit s.platform src .read = true ∧ ByteEffect (Memory.read s.mem src) s t := by
  obtain ⟨hr, h⟩ := withChunkByte_next h
  refine ⟨hr, ?_⟩
  split at h
  case isTrue hb => cases h; exact .preamble d at_ hb
  case isFalse hb => cases h; exact .noHeader (by simp at at_ ⊢; tauto) hb

theorem armLen0_next {src : Nat} {s t : State} (at_ : s.decoder = .len0) (h : armLen0 src s = .next t) :
    memAdmit s.platform src .read = true ∧ ByteEffect (Memory.read s.mem src) s t := by
  obtain ⟨hr, h⟩ := withChunkByte_next h
  cases h
  exact ⟨hr, .lengthLow at_⟩

theorem armLen1_next {src : Nat} {s t : State} (at_ : s.decoder = .len1) (h : armLen1 src s = .next t) :
    (ArmUnwritten s ∧ t = recordFault .unwrittenArg s) ∨
    memAdmit s.platform src .read = true ∧ ByteEffect (Memory.read s.mem src) s t := by
  obtain ⟨hr, h⟩ := withChunkByte_next h
  obtain ⟨hu, ht⟩ | ⟨len, hlen, h⟩ := withRegister_next h
  · exact .inl ⟨.inr (.inl ⟨by simp [at_], hu⟩), ht⟩
  cases h
  exact .inr ⟨hr, .lengthHigh len at_ hlen⟩

theorem armRsv1_next {src : Nat} {s t : State} (at_ : s.decoder = .rsv1) (h : armRsv1 src s = .next t) :
    (ArmUnwritten s ∧ t = recordFault .unwrittenArg s) ∨
    memAdmit s.platform src .read = true ∧ ByteEffect (Memory.read s.mem src) s t := by
  obtain ⟨hu, ht⟩ | ⟨cap, hcap, h⟩ := withRegister_next h
  · exact .inl ⟨.inl ⟨at_, hu⟩, ht⟩
  obtain ⟨hr, h⟩ := withChunkByte_next h
  obtain ⟨hu, ht⟩ | ⟨len, hlen, h⟩ := withRegister_next h
  · exact .inl ⟨.inr (.inl ⟨by simp [at_], hu⟩), ht⟩
  refine .inr ⟨hr, ?_⟩
  split at h
  case isTrue hb => cases h; exact .invalidLength cap len at_ hcap hlen hb
  case isFalse hb => cases h; exact .validLength cap len at_ hcap hlen (by omega) (by omega)

theorem armGath_next {src inlen : Nat} {s t : State} (h : armGath src inlen s = .next t) :
    (∃ c, c ≠ .none ∧ t = recordFault c s) ∨
    ∃ out cap len off n, GatherEffect src inlen s t out cap len off n := by
  obtain ⟨_, rfl⟩ | ⟨out, hout, h⟩ := withRegister_next h
  · exact .inl ⟨_, by decide, rfl⟩
  obtain ⟨_, rfl⟩ | ⟨cap, hcap, h⟩ := withRegister_next h
  · exact .inl ⟨_, by decide, rfl⟩
  obtain ⟨_, rfl⟩ | ⟨len, hlen, h⟩ := withRegister_next h
  · exact .inl ⟨_, by decide, rfl⟩
  obtain ⟨_, rfl⟩ | ⟨off, hoff, h⟩ := withRegister_next h
  · exact .inl ⟨_, by decide, rfl⟩
  dsimp only at h
  split at h
  · exact .inl ⟨.outOfBounds, by decide, (Host.Outcome.next.inj h).symm⟩
  case isFalse hfit =>
    split at h
    · exact .inl ⟨.overlap, by decide, (Host.Outcome.next.inj h).symm⟩
    case isFalse hap =>
      obtain ⟨hok, ht⟩ := whenAdmitted_next h
      simp only [Bool.and_eq_true, memAdmitAll_iff] at hok
      exact .inr ⟨out, cap, len, off, _, hout, hcap, hlen, hoff, rfl, by omega, by simpa using hap, hok.1, hok.2,
        (Host.Outcome.next.inj ht).symm⟩

theorem armFt0_next {src : Nat} {s t : State} (at_ : s.decoder = .ft0) (h : armFt0 src s = .next t) :
    memAdmit s.platform src .read = true ∧ ByteEffect (Memory.read s.mem src) s t := by
  obtain ⟨hr, h⟩ := withChunkByte_next h
  refine ⟨hr, ?_⟩
  split at h
  case isTrue hb => cases h; exact .footer at_ hb
  case isFalse hb => cases h; exact .noTail (by simp [at_]) hb

theorem armFt1_next {src : Nat} {s t : State} (at_ : s.decoder = .ft1) (h : armFt1 src s = .next t) :
    (ArmUnwritten s ∧ t = recordFault .unwrittenArg s) ∨
    memAdmit s.platform src .read = true ∧ ByteEffect (Memory.read s.mem src) s t := by
  obtain ⟨hr, h⟩ := withChunkByte_next h
  split at h
  case isTrue hb =>
    obtain ⟨hu, ht⟩ | ⟨f, hf, h⟩ := withRegister_next h
    · exact .inl ⟨.inr (.inr ⟨at_, hu⟩), ht⟩
    cases h
    exact .inr ⟨hr, .complete f at_ hf hb⟩
  case isFalse hb => cases h; exact .inr ⟨hr, .noTail (by simp [at_]) hb⟩

/-- The faults the state arms take: in a single-byte arm for an unwritten register, in `GATH` (41_decoder.md R111), and in
`UNINIT`. -/
def ArmFault (s t : State) : Prop :=
  ∃ c, c ≠ .none ∧ t = recordFault c s ∧
    (ArmUnwritten s ∧ c = .unwrittenArg ∨ s.decoder = .gath ∨ s.decoder = .uninit)

/-- Everything a state arm can do when it answers a next state. -/
theorem decodeArm_next {src inlen : Nat} {s t : State} (h : decodeArm src inlen s = .next t) :
    ArmFault s t ∨ DecodeEffect src inlen s t := by
  unfold decodeArm at h
  have single {d : DecoderState} (hd : s.decoder = d) (hg : d ≠ .gath)
      (he : memAdmit s.platform src .read = true ∧ ByteEffect (Memory.read s.mem src) s t) :
      ArmFault s t ∨ DecodeEffect src inlen s t :=
    .inr (.byte (hd ▸ hg) he.1 he.2)
  split at h
  case h_1 hd => exact single hd (by decide) (armPrefix_next (by simp [hd]) h)
  case h_2 hd => exact single hd (by decide) (armPrefix_next (by simp [hd]) h)
  case h_3 hd => exact single hd (by decide) (armSkip_next (by simp [hd]) h)
  case h_4 hd => exact single hd (by decide) (armSkip_next (by simp [hd]) h)
  case h_5 hd => exact single hd (by decide) (armPreamble_next (by simp [hd]) h)
  case h_6 hd => exact single hd (by decide) (armPreamble_next (by simp [hd]) h)
  case h_7 hd => exact single hd (by decide) (armPreamble_next (by simp [hd]) h)
  case h_8 hd => exact single hd (by decide) (armPreamble_next (by simp [hd]) h)
  case h_9 hd => exact single hd (by decide) (armLen0_next hd h)
  case h_10 hd =>
    obtain ⟨hu, rfl⟩ | he := armLen1_next hd h
    · exact .inl ⟨_, by decide, rfl, .inl ⟨hu, rfl⟩⟩
    · exact single hd (by decide) he
  case h_11 hd => exact single hd (by decide) (armSkip_next (by simp [hd]) h)
  case h_12 hd =>
    obtain ⟨hu, rfl⟩ | he := armRsv1_next hd h
    · exact .inl ⟨_, by decide, rfl, .inl ⟨hu, rfl⟩⟩
    · exact single hd (by decide) he
  case h_13 hd =>
    obtain ⟨c, hc, ht⟩ | ⟨out, cap, len, off, n, he⟩ := armGath_next h
    · exact .inl ⟨c, hc, ht, .inr (.inl hd)⟩
    · exact .inr (.gather hd out cap len off n he)
  case h_14 hd => exact single hd (by decide) (armFt0_next hd h)
  case h_15 hd =>
    obtain ⟨hu, rfl⟩ | he := armFt1_next hd h
    · exact .inl ⟨_, by decide, rfl, .inl ⟨hu, rfl⟩⟩
    · exact single hd (by decide) he
  case h_16 hd => exact .inl ⟨.uninit, by decide, (Host.Outcome.next.inj h).symm, .inr (.inr hd)⟩

/-- Everything `DECODE` can do when it answers a next state. -/
theorem execDecode_next {s t : State} (h : exec .decode s = .next t) :
    (∃ c, c ≠ .none ∧ t = recordFault c s) ∨
    ∃ src inlen, s.decoder ≠ .uninit ∧ s.argIn = .written src ∧ s.argInlen = .written inlen ∧ inlen ≠ 0 ∧
      DecodeEffect src inlen s t := by
  replace h : execDecode s = .next t := h
  unfold execDecode at h
  split at h
  · exact .inl ⟨.uninit, by decide, (Host.Outcome.next.inj h).symm⟩
  case isFalse hu =>
    obtain ⟨_, rfl⟩ | ⟨src, hsrc, h⟩ := withRegister_next h
    · exact .inl ⟨_, by decide, rfl⟩
    obtain ⟨_, rfl⟩ | ⟨inlen, hinlen, h⟩ := withRegister_next h
    · exact .inl ⟨_, by decide, rfl⟩
    split at h
    · exact .inl ⟨.emptyInput, by decide, (Host.Outcome.next.inj h).symm⟩
    case isFalse hz =>
      obtain ⟨c, hc, ht, _⟩ | he := decodeArm_next h
      · exact .inl ⟨c, hc, ht⟩
      · exact .inr ⟨src, inlen, hu, hsrc, hinlen, hz, he⟩

/-- A `DECODE` whose pre-checks pass is its state's arm (41_decoder.md R101, R102). -/
theorem execDecode_ready {s : State} {src inlen : Nat} (hu : s.decoder ≠ .uninit) (hsrc : s.argIn = .written src)
    (hinlen : s.argInlen = .written inlen) (hz : inlen ≠ 0) : exec .decode s = decodeArm src inlen s := by
  show execDecode s = _
  simp [execDecode, hu, hsrc, hinlen, hz]

/-! ### Any command, any step -/

/-- Everything a command can do when it answers a next state: take a fault, emit wire bytes, initialize the decoder, or
make one step of it. -/
theorem exec_next {i : Instr} {s t : State} (h : exec i s = .next t) :
    (∃ c, c ≠ .none ∧ t = recordFault c s) ∨
    (∃ buf bytes, i ≠ .initDecoder ∧ i ≠ .decode ∧ emitted i s buf bytes ∧ emitBytes buf bytes s = .next t) ∨
    (i = .initDecoder ∧ t = resync s) ∨
    (i = .decode ∧ ∃ src inlen, s.decoder ≠ .uninit ∧ s.argIn = .written src ∧ s.argInlen = .written inlen ∧
      inlen ≠ 0 ∧ DecodeEffect src inlen s t) := by
  by_cases hi : i = .initDecoder
  · subst hi
    exact .inr (.inr (.inl ⟨rfl, (Host.Outcome.next.inj h).symm⟩))
  by_cases hd : i = .decode
  · subst hd
    obtain hc | he := execDecode_next h
    · exact .inl hc
    · exact .inr (.inr (.inr ⟨rfl, he⟩))
  · obtain hc | ⟨buf, bytes, he⟩ := execEncoder_next hi hd h
    · exact .inl hc
    · exact .inr (.inl ⟨buf, bytes, hi, hd, he⟩)

/-- Everything a step can do when it answers a next state. -/
theorem step_cases {s t : State} (h : step s = .next t) :
    (s.host = [] ∧ t = s) ∨
    (∃ rest, ∃ w, s.host = .cmd w :: rest ∧ s.fault ≠ .none ∧ t = { s with host := rest }) ∨
    (∃ rest, ∃ w, ∃ e, s.host = .cmd w :: rest ∧ s.fault = .none ∧ decode w = .error e ∧
      t = recordFault .illegalCmd { s with host := rest, cmd := .written w }) ∨
    (∃ rest, ∃ w, ∃ i, s.host = .cmd w :: rest ∧ s.fault = .none ∧ decode w = .ok i ∧
      exec i { s with host := rest, cmd := .written w } = .next t) ∨
    (∃ rest, ∃ o, s.host = .operand o :: rest ∧ t = writeOperand o { s with host := rest }) ∨
    (∃ rest, ∃ a b, s.host = .store a b :: rest ∧
      t = { s with mem := Memory.write s.mem (s.platform.addrBits a) b, host := rest }) ∨
    (∃ rest, s.host = .powerOn :: rest ∧ t = powerOnReset { s with host := rest }) := by
  unfold step fetch at h
  split at h
  case h_1 u hu =>
    split at hu
    case h_1 hh => cases hu; cases h; exact .inl ⟨hh, rfl⟩
    case h_2 w rest hh =>
      unfold acceptCmd at hu
      split at hu
      case isTrue hf =>
        split at hu
        · cases hu
        case h_2 e he => cases hu; cases h; exact .inr (.inr (.inl ⟨rest, w, e, hh, hf, he, rfl⟩))
      case isFalse hf => cases hu; cases h; exact .inr (.inl ⟨rest, w, hh, hf, rfl⟩)
    case h_3 o rest hh => cases hu; cases h; exact .inr (.inr (.inr (.inr (.inl ⟨rest, o, hh, rfl⟩))))
    case h_4 a b rest hh => cases hu; cases h; exact .inr (.inr (.inr (.inr (.inr (.inl ⟨rest, a, b, hh, rfl⟩)))))
    case h_5 rest hh => cases hu; cases h; exact .inr (.inr (.inr (.inr (.inr (.inr ⟨rest, hh, rfl⟩)))))
  case h_2 i u hu =>
    split at hu
    case h_2 w rest hh =>
      unfold acceptCmd at hu
      split at hu
      case isTrue hf =>
        split at hu
        case h_1 i' he => cases hu; exact .inr (.inr (.inr (.inl ⟨rest, w, i, hh, hf, he, h⟩)))
        · cases hu
      case isFalse => cases hu
    all_goals cases hu

end Sys2Proof.Machine
end

