-- ==== Sys2Proof/Laws/PerInstr.lean ====
section
/-! SUPPORT. What holds of every command as syntax: its `CMD` word is legal and carries its opcode (30_encoding.md R70,
R72, R75). One lemma per constructor. -/

namespace Sys2Proof.Laws.CmdWord

/-- The command's word is well formed, and is its opcode in bits 2..0 with 0 above. -/
def Statement (i : Instr) : Prop :=
  i.WellFormed = true ∧ encode i = i.cmdWord ∧ cmdOp (encode i) = i.op ∧ cmdReserved (encode i) = 0#29

theorem createHeader : Statement .createHeader := ⟨by decide, by decide, by decide, by decide⟩
theorem createFooter : Statement .createFooter := ⟨by decide, by decide, by decide, by decide⟩
theorem addQid : Statement .addQid := ⟨by decide, by decide, by decide, by decide⟩
theorem initDecoder : Statement .initDecoder := ⟨by decide, by decide, by decide, by decide⟩
theorem decode : Statement .decode := ⟨by decide, by decide, by decide, by decide⟩

end Sys2Proof.Laws.CmdWord
end

