-- ==== Sys2Proof/Tests/Slice0.lean ====
section
/-! SUPPORT. Tests: the well-formedness checks, the decoding of words written out from the spec, single steps with the
expected results of 95_test_vectors.md, and, for every statement with hypotheses, a witness that meets them. -/

namespace Sys2Proof.Tests

open Sys2Proof.Machine Sys2Proof.Config

/-! ### Well-formedness and decoding -/

theorem test_reserved_bits_refused : cmdReservedClear 0x00000009#32 = false ∧ cmdReservedClear 0x80000001#32 = false ∧
    cmdReservedClear 0xFFFFFFFD#32 = false := by decide
theorem test_reserved_ops_refused : cmdOpLegal 0#32 = false ∧ cmdOpLegal 6#32 = false ∧ cmdOpLegal 7#32 = false := by
  decide
theorem test_parameters_refused : Platform.WellFormed { addrW := 32, ethMinLen := 0, regions := [] } = false ∧
    Platform.WellFormed { addrW := 32, ethMinLen := 65536, regions := [] } = false := by decide
theorem test_commands_well_formed : Instr.createHeader.WellFormed = true ∧ Instr.createFooter.WellFormed = true ∧
    Instr.addQid.WellFormed = true ∧ Instr.initDecoder.WellFormed = true ∧ Instr.decode.WellFormed = true := by decide

/-- The `CMD` words of V-F9 to V-F14. -/
theorem test_illegal_words_refused : (decode 0x00000000#32).toOption = none ∧ (decode 0x00000006#32).toOption = none ∧
    (decode 0x00000007#32).toOption = none ∧ (decode 0x00000009#32).toOption = none ∧
    (decode 0x80000001#32).toOption = none ∧ (decode 0xFFFFFFFD#32).toOption = none := by decide
theorem test_table_words : decodeTableWord 32 1 = some .createHeader ∧ decodeTableWord 32 2 = some .createFooter ∧
    decodeTableWord 32 3 = some .addQid ∧ decodeTableWord 32 4 = some .initDecoder ∧
    decodeTableWord 32 5 = some .decode := by decide

/-! ### Small states -/

/-- The next state of an answer, if it is one. -/
def after : Answer → Option State
  | .next t => some t
  | _ => none

/-- After reset, with the encoder's operands written. -/
def encoderState (buf : Nat) (len : Half) (ver : Word) (qid : Byte) : State :=
  { State.reset with argBuf := .written buf, argLen := .written len, argVer := .written ver, argQid := .written qid }

/-- A single-step state of 95_test_vectors.md section 3: byte `b` at 0x2000, a chunk of one byte, `LEN`, `OFFSET` and `cap`
as given. -/
def byteState (d : DecoderState) (len off cap : Half) (b : Byte) : State :=
  { State.reset with
    decoder := d, len := .written len, offset := .written off
    argBuf := .written 0x8000, argLen := .written cap, argIn := .written 0x2000, argInlen := .written 1
    mem := if b = 0#8 then [] else [(0x2000, b)] }

/-- A gather state of 95_test_vectors.md section 4, with the chunk 10 11 at 0x2000. -/
def gatherState (len off : Half) (src inlen out : Nat) (cap : Half) : State :=
  { State.reset with
    decoder := .gath, len := .written len, offset := .written off
    argBuf := .written out, argLen := .written cap, argIn := .written src, argInlen := .written inlen
    mem := [(0x2000, 0x10#8), (0x2001, 0x11#8)] }

/-- The bytes at `a .. a + n - 1`. -/
def bytesAt (s : State) (a n : Nat) : List Byte := (List.range n).map fun i => Memory.read s.mem (a + i)

/-! ### Single steps -/

/-- V-E13: version packing. -/
theorem test_create_header_packs : (after (exec .createHeader (encoderState 0x100 60#16 0x12345#32 0#8))).map
    (fun t => (bytesAt t 0x100 8, t.resLen)) =
    some ([0xAA#8, 0xAA#8, 0xAA#8, 0xAA#8, 0x3C#8, 0xA0#8, 0x68#8, 0x24#8], .written 8#16) := by decide
/-- V-E8: with `V != 0`, length bits 15..13 are overwritten even by zeros. -/
theorem test_create_header_overwrites : (after (exec .createHeader (encoderState 0xFFF8 0xFFFF#16 8#32 0#8))).map
    (fun t => bytesAt t 0xFFF8 8) =
    some [0xAA#8, 0xAA#8, 0xAA#8, 0xAA#8, 0xFF#8, 0x1F#8, 0x01#8, 0x00#8] := by decide
/-- V-E16. -/
theorem test_create_footer : (after (exec .createFooter (encoderState 0x1044 0#16 0#32 0#8))).map
    (fun t => (t.mem, t.resLen)) = some ([(0x1044, 0x55#8), (0x1045, 0x55#8)], .written 2#16) := by decide
/-- V-E19: writing the zero byte lists nothing. -/
theorem test_add_qid : (after (exec .addQid (encoderState 0x100 0#16 0#32 0xFF#8))).map
    (fun t => (t.mem, t.resLen)) = some ([(0x101, 0xFF#8)], .written 2#16) := by decide
/-- The example of 41_decoder.md R100. -/
theorem test_init_decoder : (after (exec .initDecoder (byteState .gath 60#16 17#16 60#16 0#8))).map
    (fun t => (t.decoder, t.len, t.offset)) = some (.pfx0, .written 60#16, .written 17#16) := by decide
/-- V-G5, with a chunk longer than the countdown as in V-G4: the last payload byte, and the move to `FT0`. -/
theorem test_decode_gathers : (after (exec .decode (gatherState 60#16 59#16 0x2000 3 0x8000 1518#16))).map
    (fun t => (t.decoder, t.offset, t.resCons, bytesAt t 0x803B 2)) =
    some (.ft0, .written 60#16, .written 1, [0x10#8, 0x00#8]) := by decide
/-- V-S17: no version bit is masked out of `LEN`. -/
theorem test_decode_length_unmasked : (after (exec .decode (byteState .len1 0x3C#16 0#16 1518#16 0x20#8))).map
    (fun t => (t.decoder, t.len)) = some (.rsv0, .written 0x203C#16) := by decide

/-! ### Witnesses: the host's moves -/

/-- `s` with the host's next move `m`. -/
def moving (m : HostMove) (s : State) : State := { s with host := [m] }

theorem wit_PowerOnResetsRegistersNotMemory :
    (moving .powerOn (byteState .ft1 60#16 60#16 60#16 0x55#8)).host = .powerOn :: [] := by decide
theorem wit_HostOperandWriteChangesOneRegister :
    (moving (.operand (.argQid 7#8)) State.reset).host = .operand (.argQid 7#8) :: [] := by decide
theorem wit_HostStoreChangesOneByte :
    (moving (.store 0xFFFFFFFF 1#8) State.reset).host = .store 0xFFFFFFFF 1#8 :: [] := by decide
theorem wit_IdleStepChangesNothing : State.reset.host = [] := by decide
theorem wit_StepRunsDecodedCommand : (moving (.cmd 5#32) State.reset).host = .cmd 5#32 :: [] ∧
    (moving (.cmd 5#32) State.reset).Live ∧ (decode 5#32).toOption = some .decode := by decide
theorem wit_IllegalCmdTakesFault_op : (moving (.cmd 7#32) State.reset).host = .cmd 7#32 :: [] ∧
    (moving (.cmd 7#32) State.reset).Live ∧ (0#32 : Word).toNat % 8 = 0 ∧ (6#32 : Word).toNat % 8 = 6 ∧
    (7#32 : Word).toNat % 8 = 7 := by decide
theorem wit_IllegalCmdTakesFault_reserved : (moving (.cmd 9#32) State.reset).host = .cmd 9#32 :: [] ∧
    (moving (.cmd 9#32) State.reset).Live ∧ (9#32 : Word).toNat / 8 ≠ 0 ∧ (0x80000001#32 : Word).toNat / 8 ≠ 0 := by
  decide
theorem wit_FaultedCodecIgnoresCommands : (moving (.cmd 4#32) (recordFault .uninit State.reset)).host = .cmd 4#32 :: [] ∧
    (moving (.cmd 4#32) (recordFault .uninit State.reset)).fault ≠ .none := by decide
theorem wit_FaultChangedOnlyByPowerOn : ∃ s t, step s = .next t ∧ s.fault ≠ .none ∧ t.fault ≠ s.fault :=
  ⟨moving .powerOn (recordFault .uninit State.reset), _, rfl, by decide, by decide⟩
theorem wit_StepKeepsParameters : ∃ t, step (moving (.cmd 4#32) State.reset) = .next t := ⟨_, rfl⟩

/-! ### Witnesses: the encoder -/

theorem wit_HeaderWordPacksLengthAndVersion : (0x7FFFF#32 : Word).toNat < 2 ^ 19 := by decide
theorem wit_DecoderVisibleLengthEqualsLength : (0x7FFFF#32 : Word).toNat < 2 ^ 19 := by decide

theorem wit_CreateHeaderMeaning_unwritten : State.reset.argBuf = .unwritten ∧
    ({ encoderState 0 0#16 0#32 0#8 with argLen := .unwritten } : State).argLen = .unwritten ∧
    ({ encoderState 0 0#16 0#32 0#8 with argVer := .unwritten } : State).argVer = .unwritten := by decide
/-- V-E21 and V-E27: the first version out of range. -/
theorem wit_CreateHeaderMeaning_version : (encoderState 0xFFF9 60#16 0x80000#32 0#8).argVer = .written 0x80000#32 ∧
    (encoderState 0xFFF9 60#16 0x80000#32 0#8).argBuf = .written 0xFFF9 ∧
    (encoderState 0xFFF9 60#16 0x80000#32 0#8).argLen = .written 60#16 ∧
    2 ^ 19 ≤ 0x80000 := by decide
/-- V-E24. -/
theorem wit_CreateHeaderMeaning_stuck : (encoderState 0xFFF9 60#16 0#32 0#8).argBuf = .written 0xFFF9 ∧
    (encoderState 0xFFF9 60#16 0#32 0#8).argLen = .written 60#16 ∧
    (encoderState 0xFFF9 60#16 0#32 0#8).argVer = .written 0#32 ∧ (0#32 : Word).toNat < 2 ^ 19 ∧
    ∃ k < 8, memAdmit (encoderState 0xFFF9 60#16 0#32 0#8).platform (0xFFF9 + k) .write = false := by decide
/-- V-E20 with the largest legal version: the last 8 admitted bytes. -/
theorem wit_CreateHeaderMeaning_completes : (encoderState 0xFFF8 60#16 0x7FFFF#32 0#8).argBuf = .written 0xFFF8 ∧
    (encoderState 0xFFF8 60#16 0x7FFFF#32 0#8).argLen = .written 60#16 ∧
    (encoderState 0xFFF8 60#16 0x7FFFF#32 0#8).argVer = .written 0x7FFFF#32 ∧ (0x7FFFF#32 : Word).toNat < 2 ^ 19 ∧
    ∀ k < 8, memAdmit (encoderState 0xFFF8 60#16 0x7FFFF#32 0#8).platform (0xFFF8 + k) .write =
      true := by decide

theorem wit_CreateFooterMeaning_unwritten : State.reset.argBuf = .unwritten := by decide
/-- V-E26. -/
theorem wit_CreateFooterMeaning_stuck : (encoderState 0xFFFF 0#16 0#32 0#8).argBuf = .written 0xFFFF ∧
    (memAdmit (encoderState 0xFFFF 0#16 0#32 0#8).platform 0xFFFF .write = false ∨
      memAdmit (encoderState 0xFFFF 0#16 0#32 0#8).platform (0xFFFF + 1) .write = false) := by
  decide
theorem wit_CreateFooterMeaning_completes : (encoderState 0xFFFE 0#16 0#32 0#8).argBuf = .written 0xFFFE ∧
    memAdmit (encoderState 0xFFFE 0#16 0#32 0#8).platform 0xFFFE .write = true ∧
    memAdmit (encoderState 0xFFFE 0#16 0#32 0#8).platform (0xFFFE + 1) .write = true := by decide

theorem wit_AddQidMeaning_unwritten : State.reset.argBuf = .unwritten ∧
    ({ encoderState 0 0#16 0#32 0#8 with argQid := .unwritten } : State).argQid = .unwritten := by decide
theorem wit_AddQidMeaning_stuck : (encoderState 0xFFFF 0#16 0#32 3#8).argBuf = .written 0xFFFF ∧
    (encoderState 0xFFFF 0#16 0#32 3#8).argQid = .written 3#8 ∧
    (memAdmit (encoderState 0xFFFF 0#16 0#32 3#8).platform 0xFFFF .write = false ∨
      memAdmit (encoderState 0xFFFF 0#16 0#32 3#8).platform (0xFFFF + 1) .write = false) := by
  decide
theorem wit_AddQidMeaning_completes : (encoderState 0xFFFE 0#16 0#32 3#8).argBuf = .written 0xFFFE ∧
    (encoderState 0xFFFE 0#16 0#32 3#8).argQid = .written 3#8 ∧
    memAdmit (encoderState 0xFFFE 0#16 0#32 3#8).platform 0xFFFE .write = true ∧
    memAdmit (encoderState 0xFFFE 0#16 0#32 3#8).platform (0xFFFE + 1) .write = true := by decide

theorem wit_EncoderIndependentOfHandle : ∀ i ∈ [Instr.createHeader, .createFooter, .addQid],
    (i = .createHeader ∨ i = .createFooter ∨ i = .addQid) ∧
    (after (exec i (encoderState 0x100 60#16 0#32 7#8))).isSome = true := by decide

theorem wit_HeaderAndFooterCommute : ∃ s t1 t2 u1 u2 : State, Memory.wf s.mem = true ∧ s.argLen = .written 60#16 ∧
    0x144 = 0x100 + 8 + (60#16 : Half).toNat ∧
    exec .createHeader { s with argBuf := .written 0x100 } = .next t1 ∧ t1.fault = s.fault ∧
    exec .createFooter { t1 with argBuf := .written 0x144 } = .next t2 ∧
    exec .createFooter { s with argBuf := .written 0x144 } = .next u1 ∧
    exec .createHeader { u1 with argBuf := .written 0x100 } = .next u2 :=
  ⟨encoderState 0 60#16 0#32 0#8, _, _, _, _, by decide, by decide, by decide, rfl, rfl, rfl, rfl, rfl⟩

/-! ### Witnesses: the decoder -/

/-- The hypotheses every single-byte arm shares, met by `byteState`. -/
theorem wit_byte_arms : ∀ d ∈ [DecoderState.pfx0, .pfx1, .pfx2, .pfx3, .aa1, .aa2, .aa3, .aa4, .len0, .len1, .rsv0, .rsv1,
    .ft0, .ft1], ∀ b ∈ [0x00#8, 0x55#8, 0xAA#8, 0xFF#8],
    (byteState d 0xFF#16 60#16 1518#16 b).decoder = d ∧
    d ≠ .uninit ∧ d ≠ .gath ∧
    (byteState d 0xFF#16 60#16 1518#16 b).argIn = .written 0x2000 ∧
    (byteState d 0xFF#16 60#16 1518#16 b).argInlen = .written 1 ∧ 1 ≠ 0 ∧
    (byteState d 0xFF#16 60#16 1518#16 b).len = .written 0xFF#16 ∧ (0xFF#16 : Half).toNat < 2 ^ 8 ∧
    (byteState d 0xFF#16 60#16 1518#16 b).offset = .written 60#16 ∧
    memAdmit (byteState d 0xFF#16 60#16 1518#16 b).platform 0x2000 .read = true ∧
    Memory.read (byteState d 0xFF#16 60#16 1518#16 b).mem 0x2000 = b := by decide

theorem wit_UninitLeftOnlyByInitDecoder :
    (∃ t, step (moving (.cmd 4#32) State.reset) = .next t ∧ State.reset.decoder = .uninit ∧ t.decoder ≠ .uninit) ∧
    ∃ t, step (moving .powerOn (byteState .pfx0 0#16 0#16 0#16 0#8)) = .next t ∧
      (byteState .pfx0 0#16 0#16 0#16 0#8).decoder ≠ .uninit ∧ t.decoder = .uninit :=
  ⟨⟨_, rfl, by decide, by decide⟩, ⟨_, rfl, by decide, by decide⟩⟩

/-- V-F6, V-F5, V-F3. -/
theorem wit_DecodePrechecksInOrder : State.reset.decoder = .uninit ∧
    ({ byteState .pfx0 0#16 0#16 0#16 0#8 with argIn := .unwritten, argInlen := .written 0 } : State).argIn = .unwritten ∧
    ({ byteState .pfx0 0#16 0#16 0#16 0#8 with argInlen := .unwritten } : State).argInlen = .unwritten ∧
    (byteState .pfx0 0#16 0#16 0#16 0#8).decoder ≠ .uninit ∧ (byteState .pfx0 0#16 0#16 0#16 0#8).argIn ≠ .unwritten ∧
    ({ byteState .pfx0 0#16 0#16 0#16 0#8 with argInlen := .written 0 } : State).argInlen = .written 0 := by decide

/-- V-F16. -/
theorem wit_SingleByteArmsReadOneByte_stuck :
    ({ byteState .rsv1 60#16 0#16 60#16 0#8 with argIn := .written 0x10000 } : State).argIn = .written 0x10000 ∧
    memAdmit (byteState .rsv1 60#16 0#16 60#16 0#8).platform 0x10000 .read = false ∧
    (byteState .rsv1 60#16 0#16 60#16 0#8).argLen ≠ .unwritten := by decide
theorem wit_SingleByteArmsReadOneByte_memory :
    Memory.read [(0x1FFF, 1#8), (0x2000, 0xAA#8)] 0x2000 =
      Memory.read (byteState .aa1 60#16 0#16 60#16 0xAA#8).mem 0x2000 := by decide
theorem wit_SingleByteArmsReadOneByte_next :
    ∃ t, exec .decode (byteState .ft1 60#16 60#16 60#16 0x55#8) = .next t := ⟨_, rfl⟩

theorem wit_SkippedByteArmsAdvance : ∀ p ∈ [(DecoderState.pfx2, DecoderState.pfx3), (.pfx3, .aa1), (.rsv0, .rsv1)],
    ((byteState p.1 0#16 0#16 0#16 0xAA#8).decoder, p.2) ∈
      [(DecoderState.pfx2, DecoderState.pfx3), (.pfx3, .aa1), (.rsv0, .rsv1)] := by decide
theorem wit_PreambleArmsMatchAA : ∀ p ∈ [(DecoderState.aa1, DecoderState.aa2), (.aa2, .aa3), (.aa3, .aa4), (.aa4, .len0)],
    ((byteState p.1 0#16 0#16 0#16 0xAA#8).decoder, p.2) ∈
      [(DecoderState.aa1, DecoderState.aa2), (.aa2, .aa3), (.aa3, .aa4), (.aa4, .len0)] := by decide

/-- The state of V-F7. -/
theorem wit_SecondReservedByteChecksLength_unwritten :
    ({ byteState .rsv1 60#16 0#16 0#16 0#8 with argLen := .unwritten } : State).argLen = .unwritten := by decide
/-- V-S20 and V-S21: one above the capacity, one below the minimum. -/
theorem wit_SecondReservedByteChecksLength_bad :
    (byteState .rsv1 60#16 0#16 59#16 0#8).len = .written 60#16 ∧
    (byteState .rsv1 60#16 0#16 59#16 0#8).argLen = .written 59#16 ∧ (59#16 : Half).toNat < (60#16 : Half).toNat ∧
    (byteState .rsv1 59#16 0#16 1518#16 0#8).len = .written 59#16 ∧
    (59#16 : Half).toNat < (byteState .rsv1 59#16 0#16 1518#16 0#8).platform.ethMinLen := by decide
/-- V-S19: the length is the minimum and the capacity. -/
theorem wit_SecondReservedByteChecksLength_good :
    (byteState .rsv1 60#16 0#16 60#16 0#8).len = .written 60#16 ∧
    (byteState .rsv1 60#16 0#16 60#16 0#8).argLen = .written 60#16 ∧
    (byteState .rsv1 60#16 0#16 60#16 0#8).platform.ethMinLen ≤ (60#16 : Half).toNat ∧
    (60#16 : Half).toNat ≤ (60#16 : Half).toNat := by decide

theorem wit_GatherCopiesPayload_unwritten :
    ({ gatherState 60#16 0#16 0x2000 7 0x8000 60#16 with argBuf := .unwritten } : State).argBuf = .unwritten ∧
    ({ gatherState 60#16 0#16 0x2000 7 0x8000 60#16 with argLen := .unwritten } : State).argLen = .unwritten := by
  decide
/-- The hypotheses that every clause of the gather statement with its operands written shares. -/
abbrev GatherReady (s : State) (src inlen out : Nat) (cap len off : Half) (n : Nat) : Prop :=
  s.decoder = .gath ∧ s.argIn = .written src ∧ s.argInlen = .written inlen ∧ inlen ≠ 0 ∧ s.argBuf = .written out ∧
  s.argLen = .written cap ∧ s.len = .written len ∧ s.offset = .written off ∧ n = min inlen (len.toNat - off.toNat)

/-- One byte short of V-G6: beyond the capacity. -/
theorem wit_GatherCopiesPayload_bounds :
    GatherReady (gatherState 60#16 10#16 0x2000 5 0x8000 14#16) 0x2000 5 0x8000 14#16 60#16 10#16 5 ∧
    (14#16 : Half).toNat < (10#16 : Half).toNat + 5 := by decide
/-- V-G12: one shared byte. -/
theorem wit_GatherCopiesPayload_overlap :
    GatherReady (gatherState 60#16 0#16 0x7FF7 10 0x8000 1518#16) 0x7FF7 10 0x8000 1518#16 60#16 0#16 10 ∧
    (0#16 : Half).toNat + 10 ≤ (1518#16 : Half).toNat ∧
    ∃ i < 10, ∃ j < 10, 0x7FF7 + i = 0x8000 + (0#16 : Half).toNat + j := by decide
/-- V-G13. -/
theorem wit_GatherCopiesPayload_stuck :
    GatherReady (gatherState 60#16 0#16 0x2000 10 0xFFF8 1518#16) 0x2000 10 0xFFF8 1518#16 60#16 0#16 10 ∧
    (0#16 : Half).toNat + 10 ≤ (1518#16 : Half).toNat ∧
    (∀ i < 10, ∀ j < 10, 0x2000 + i ≠ 0xFFF8 + (0#16 : Half).toNat + j) ∧
    ∃ i < 10, memAdmit (gatherState 60#16 0#16 0x2000 10 0xFFF8 1518#16).platform (0x2000 + i) .read = false ∨
      memAdmit (gatherState 60#16 0#16 0x2000 10 0xFFF8 1518#16).platform (0xFFF8 + (0#16 : Half).toNat + i) .write =
        false := by decide
/-- V-G10: adjacent ranges, with `OFFSET + n = cap`. -/
theorem wit_GatherCopiesPayload_completes :
    GatherReady (gatherState 60#16 0#16 0x800A 10 0x8000 10#16) 0x800A 10 0x8000 10#16 60#16 0#16 10 ∧
    (0#16 : Half).toNat + 10 ≤ (10#16 : Half).toNat ∧
    (∀ i < 10, ∀ j < 10, 0x800A + i ≠ 0x8000 + (0#16 : Half).toNat + j) ∧
    ∀ i < 10, memAdmit (gatherState 60#16 0#16 0x800A 10 0x8000 10#16).platform (0x800A + i) .read = true ∧
      memAdmit (gatherState 60#16 0#16 0x800A 10 0x8000 10#16).platform (0x8000 + (0#16 : Half).toNat + i) .write =
        true := by decide

/-- V-S14, V-S20, V-S30 and V-S29: each result but `GATHER`. -/
theorem wit_NonGatherResultResynchronizes :
    (after (exec .decode (byteState .aa4 60#16 60#16 1518#16 0x55#8))).map (fun t => (t.fault, t.resKind)) =
      some (.none, .written .noHeader) ∧
    (after (exec .decode (byteState .rsv1 60#16 60#16 59#16 0x00#8))).map (fun t => (t.fault, t.resKind)) =
      some (.none, .written .invalidLength) ∧
    (after (exec .decode (byteState .ft1 60#16 60#16 1518#16 0x00#8))).map (fun t => (t.fault, t.resKind)) =
      some (.none, .written .noTail) ∧
    (after (exec .decode (byteState .ft1 60#16 60#16 1518#16 0x55#8))).map (fun t => (t.fault, t.resKind)) =
      some (.none, .written .frame) := by decide
theorem wit_FramingErrorsComeFromTheirStates :
    ∃ t, exec .decode (byteState .aa4 60#16 60#16 1518#16 0x55#8) = .next t ∧ t.Live ∧
      t.resKind = .written .noHeader := ⟨_, rfl, by decide, by decide⟩

/-- A gather state meets the handle's invariant. -/
theorem gatherState_handleInv : HandleInv (gatherState 60#16 59#16 0x2000 3 0x8000 1518#16) :=
  ⟨60#16, 59#16, rfl, rfl, by decide, by decide⟩
theorem wit_DecodeConsumptionLaw : ∃ t,
    HandleInv (gatherState 60#16 59#16 0x2000 3 0x8000 1518#16) ∧
    (gatherState 60#16 59#16 0x2000 3 0x8000 1518#16).argInlen = .written 3 ∧
    exec .decode (gatherState 60#16 59#16 0x2000 3 0x8000 1518#16) = .next t ∧ t.Live :=
  ⟨_, gatherState_handleInv, rfl, rfl, by decide⟩
theorem wit_DecodeConsumptionLaw_byte : ∃ t, HandleInv (byteState .pfx0 0#16 0#16 0#16 0#8) ∧
    (byteState .pfx0 0#16 0#16 0#16 0#8).argInlen = .written 1 ∧
    exec .decode (byteState .pfx0 0#16 0#16 0#16 0#8) = .next t ∧ t.Live := ⟨_, trivial, rfl, rfl, by decide⟩
theorem wit_DecodeWritesOnlyPayloadBytes : ∃ t,
    exec .decode (gatherState 60#16 59#16 0x2000 3 0x8000 1518#16) = .next t ∧
    Memory.read t.mem 0x803B ≠ Memory.read (gatherState 60#16 59#16 0x2000 3 0x8000 1518#16).mem 0x803B :=
  ⟨_, rfl, by decide⟩
theorem wit_HandleWrittenOnlyInItsStates :
    (∃ t, exec .decode (byteState .len0 60#16 60#16 60#16 1#8) = .next t ∧
      t.len ≠ (byteState .len0 60#16 60#16 60#16 1#8).len) ∧
    ∃ t, exec .decode (byteState .rsv1 60#16 60#16 60#16 1#8) = .next t ∧
      t.offset ≠ (byteState .rsv1 60#16 60#16 60#16 1#8).offset := ⟨⟨_, rfl, by decide⟩, ⟨_, rfl, by decide⟩⟩
theorem wit_EnteringGatherBoundsLength : ∃ t, exec .decode (byteState .rsv1 60#16 60#16 60#16 0#8) = .next t ∧
    (byteState .rsv1 60#16 60#16 60#16 0#8).decoder ≠ .gath ∧ t.decoder = .gath := ⟨_, rfl, by decide, by decide⟩

/-! ### Witnesses: faults, stuck commands, unread registers -/

theorem wit_FaultsArePrecise : ∃ t, exec .decode State.reset = .next t ∧ t.fault ≠ State.reset.fault :=
  ⟨_, rfl, by decide⟩
theorem wit_StuckExactlyWhenUnadmitted_stuck : exec .createFooter (encoderState 0xFFFF 0#16 0#32 0#8) =
    .fault .notAdmitted := rfl
theorem wit_StuckExactlyWhenUnadmitted_next : ∃ t, exec .createFooter (encoderState 0xFFFE 0#16 0#32 0#8) = .next t ∧
    t.Live ∧ Touches .createFooter (encoderState 0xFFFE 0#16 0#32 0#8) 0xFFFF .write :=
  ⟨_, rfl, by decide, rfl, 0xFFFE, rfl, by decide, by decide⟩
theorem wit_StuckExactlyWhenUnadmitted_unadmitted :
    firstFailure (preconditionChecks .createFooter (encoderState 0xFFFF 0#16 0#32 0#8)) = none ∧
    HandleInv (encoderState 0xFFFF 0#16 0#32 0#8) ∧
    Touches .createFooter (encoderState 0xFFFF 0#16 0#32 0#8) 0x10000 .write ∧
    memAdmit (encoderState 0xFFFF 0#16 0#32 0#8).platform 0x10000 .write = false :=
  ⟨by decide, ⟨rfl, rfl⟩, ⟨rfl, 0xFFFF, rfl, by decide, by decide⟩, by decide⟩
theorem wit_NoAddressBeyondSpaceAdmitted :
    memAdmit { addrW := 32, ethMinLen := 60, regions := [{ base := 0, size := 2 ^ 33, readable := true, writable := true }] }
      0xFFFFFFFF .write = true := by decide
theorem wit_UnnamedOperandsNotRead : (byteState .pfx0 0#16 0#16 0#16 0#8).decoder ≠ .gath ∧
    (byteState .pfx0 0#16 0#16 0#16 0#8).decoder ≠ .rsv1 := by decide
theorem wit_CommandsKeepOtherRegisters :
    (∃ t, exec .decode (byteState .ft1 60#16 60#16 60#16 0x55#8) = .next t) ∧
    (∃ t, exec .initDecoder State.reset = .next t) ∧
    ∃ t, exec .addQid (encoderState 0x100 0#16 0#32 3#8) = .next t := ⟨⟨_, rfl⟩, ⟨_, rfl⟩, ⟨_, rfl⟩⟩

/-! ### Witnesses: invariants -/

/-- A gather step about to run. -/
def gatherNext : State := moving (.cmd 5#32) (gatherState 60#16 59#16 0x2000 3 0x8000 1518#16)

theorem wit_StepKeepsHandleInvariant : ∃ t, gatherNext.platform.WellFormed = true ∧ HandleInv gatherNext ∧
    step gatherNext = .next t := ⟨_, by decide, gatherState_handleInv, rfl⟩
theorem wit_StepKeepsResultInvariant : ∃ t, gatherNext.platform.WellFormed = true ∧ HandleInv gatherNext ∧
    ResultInv gatherNext ∧ step gatherNext = .next t :=
  ⟨_, by decide, gatherState_handleInv, .inl ⟨rfl, rfl, rfl⟩, rfl⟩
theorem wit_StepKeepsMemoryInvariant : ∃ t, MemoryInv gatherNext ∧ step gatherNext = .next t :=
  ⟨_, ⟨by decide, by decide⟩, rfl⟩
theorem wit_StepKeepsAddressWidth : ∃ t, AddressInv (moving (.operand (.argBuf 0xFFFFFFFF)) State.reset) ∧
    step (moving (.operand (.argBuf 0xFFFFFFFF)) State.reset) = .next t :=
  ⟨_, fun v h => by simp [moving, State.reset] at h, rfl⟩
theorem wit_HandleNeverReadUnwritten : HandleInv { byteState .len0 0#16 0#16 0#16 7#8 with len := .unwritten, offset := .unwritten } ∧
    ({ byteState .len0 0#16 0#16 0#16 7#8 with len := .unwritten, offset := .unwritten } : State).len = .unwritten ∧
    ({ byteState .len0 0#16 0#16 0#16 7#8 with len := .unwritten, offset := .unwritten } : State).offset = .unwritten :=
  ⟨trivial, rfl, rfl⟩
/-- A host write to an `ADDR_W`-bit register keeps its low `ADDR_W` bits. -/
theorem test_operand_write_width : (after (step (moving (.operand (.argIn 0x100000005)) State.reset))).map (·.argIn) =
    some (.written 5) := by decide
theorem wit_FirstFailedCheckIsReported :
    firstFailure (preconditionChecks .decode (byteState .ft1 60#16 60#16 60#16 0x55#8)) = none ∧
    HandleInv (byteState .ft1 60#16 60#16 60#16 0x55#8) ∧
    ∃ t, exec .decode (byteState .ft1 60#16 60#16 60#16 0x55#8) = .next t :=
  ⟨by decide, ⟨60#16, rfl, rfl, by decide⟩, _, rfl⟩

/-! ### Witnesses: streams -/

/-- The decoder just initialized, with the first 12 bytes of the stream F60 at 0x2000 (95_test_vectors.md). -/
def streamState : State :=
  { State.reset with
    decoder := .pfx0
    mem := [(0x2003, 0x4A#8), (0x2004, 0xAA#8), (0x2005, 0xAA#8), (0x2006, 0xAA#8), (0x2007, 0xAA#8), (0x2008, 0x3C#8)] }

/-- One call that presents one byte. -/
theorem feedOne {start stop cursor : Nat} {s u t : State} {r : List Report} {kind : ResultKind} {frame : Half}
    (before : Feeds 0x8000 60#16 start stop s cursor r u) (within : cursor + 1 ≤ stop)
    (ran : exec .decode (presentChunk 0x8000 60#16 cursor 1 u) = .next t) (live : t.Live)
    (hkind : t.resKind = .written kind) (hframe : t.resFrame = .written frame) (hcons : t.resCons = .written 1) :
    Feeds 0x8000 60#16 start stop s (cursor + 1) (r ++ reportOf cursor kind frame) t :=
  .call before (by decide) within ran live hkind hframe hcons

theorem feed_four : ∃ r u, Feeds 0x8000 60#16 0x2000 0x200C streamState 0x2004 r u ∧
    u.decoder = .aa1 ∧ u.platform = thisPlatform ∧ u.mem = streamState.mem ∧ u.Live := by
  have f1 := feedOne (.start (s := streamState) (start := 0x2000) (stop := 0x200C)) (by decide) rfl rfl rfl rfl rfl
  have f2 := feedOne f1 (by decide) rfl rfl rfl rfl rfl
  have f3 := feedOne f2 (by decide) rfl rfl rfl rfl rfl
  exact ⟨_, _, feedOne f3 (by decide) rfl rfl rfl rfl rfl, rfl, rfl, rfl, rfl⟩

theorem wit_ChunkingInvariance : (0x8000 : Nat) < 2 ^ streamState.platform.addrW ∧ (0x200C : Nat) ≤ 2 ^ streamState.platform.addrW ∧ streamState.platform.WellFormed = true ∧ HandleInv streamState ∧
    ∃ r u, Feeds 0x8000 60#16 0x2000 0x200C streamState 0x2004 r u :=
  ⟨by decide, by decide, by decide, trivial, by obtain ⟨r, u, h, _⟩ := feed_four; exact ⟨r, u, h⟩⟩

theorem wit_NonzeroNoiseIsSkipped : (0x2006 : Nat) ≤ 2 ^ streamState.platform.addrW ∧ streamState.decoder = .pfx0 ∧
    (∀ a, 0x2004 ≤ a → a < 0x2006 → Memory.read streamState.mem a ≠ 0x00#8) ∧
    ∃ r u, Feeds 0x8000 60#16 0x2004 0x2006 streamState 0x2006 r u := by
  refine ⟨by decide, by decide, fun a h1 h2 => ?_, ?_⟩
  · obtain rfl | rfl : a = 0x2004 ∨ a = 0x2005 := by omega
    · decide
    · decide
  · have f1 := feedOne (.start (s := streamState) (start := 0x2004) (stop := 0x2006)) (by decide) rfl rfl rfl rfl rfl
    exact ⟨_, _, feedOne f1 (by decide) rfl rfl rfl rfl rfl⟩

theorem wit_PrefixedHeaderJudgesLength : (0x200C : Nat) ≤ 2 ^ streamState.platform.addrW ∧ streamState.platform.WellFormed = true ∧
    streamState.decoder = .pfx0 ∧ Memory.read streamState.mem 0x2000 = 0x00#8 ∧
    Memory.read streamState.mem (0x2000 + 1) = 0x00#8 ∧ (∀ k < 4, Memory.read streamState.mem (0x2000 + 4 + k) = 0xAA#8) ∧
    ∃ r u, Feeds 0x8000 60#16 0x2000 0x200C streamState (0x2000 + 12) r u := by
  refine ⟨by decide, by decide, by decide, by decide, by decide, by decide, ?_⟩
  have f1 := feedOne (.start (s := streamState) (start := 0x2000) (stop := 0x200C)) (by decide) rfl rfl rfl rfl rfl
  have f2 := feedOne f1 (by decide) rfl rfl rfl rfl rfl
  have f3 := feedOne f2 (by decide) rfl rfl rfl rfl rfl
  have f4 := feedOne f3 (by decide) rfl rfl rfl rfl rfl
  have f5 := feedOne f4 (by decide) rfl rfl rfl rfl rfl
  have f6 := feedOne f5 (by decide) rfl rfl rfl rfl rfl
  have f7 := feedOne f6 (by decide) rfl rfl rfl rfl rfl
  have f8 := feedOne f7 (by decide) rfl rfl rfl rfl rfl
  have f9 := feedOne f8 (by decide) rfl rfl rfl rfl rfl
  have f10 := feedOne f9 (by decide) rfl rfl rfl rfl rfl
  have f11 := feedOne f10 (by decide) rfl rfl rfl rfl rfl
  exact ⟨_, _, feedOne f11 (by decide) rfl rfl rfl rfl rfl⟩

/-- A prefixed envelope of one payload byte 7F, for an instance whose `ETH_MIN_LEN` is 1. -/
def tinyFrame : State :=
  { State.reset with
    decoder := .pfx0
    platform := { thisPlatform with ethMinLen := 1 }
    mem := [(0x2004, 0xAA#8), (0x2005, 0xAA#8), (0x2006, 0xAA#8), (0x2007, 0xAA#8), (0x2008, 0x01#8), (0x200C, 0x7F#8),
      (0x200D, 0x55#8), (0x200E, 0x55#8)] }

/-- The output buffer ends where the stream begins, and the capacity is the length. -/
theorem wit_PrefixedFrameRoundTrip :
    0x2000 + (1#16 : Half).toNat + 14 ≤ 2 ^ tinyFrame.platform.addrW ∧ tinyFrame.platform.WellFormed = true ∧ tinyFrame.Live ∧
    tinyFrame.decoder = .pfx0 ∧ (0#32 : Word).toNat < 2 ^ 19 ∧
    ((0#32 : Word) = 0#32 ∨ (0#32 : Word).toNat % 8 = (1#16 : Half).toNat / 2 ^ 13) ∧
    tinyFrame.platform.ethMinLen ≤ (1#16 : Half).toNat ∧ (1#16 : Half).toNat ≤ (1#16 : Half).toNat ∧
    Memory.read tinyFrame.mem 0x2000 = 0x00#8 ∧ Memory.read tinyFrame.mem (0x2000 + 1) = 0x00#8 ∧
    (∀ k < 8, (headerBytes 1#16 0#32)[k]? = some (Memory.read tinyFrame.mem (0x2000 + 4 + k))) ∧
    Memory.read tinyFrame.mem (0x2000 + 12 + (1#16 : Half).toNat) = 0x55#8 ∧
    Memory.read tinyFrame.mem (0x2000 + 13 + (1#16 : Half).toNat) = 0x55#8 ∧
    (∀ k < (1#16 : Half).toNat + 14, memAdmit tinyFrame.platform (0x2000 + k) .read = true) ∧
    (∀ k < (1#16 : Half).toNat, memAdmit tinyFrame.platform (0x1FFF + k) .write = true) ∧
    (0x1FFF + (1#16 : Half).toNat ≤ 0x2000 ∨ 0x2000 + (1#16 : Half).toNat + 14 ≤ 0x1FFF) := by
  decide
theorem wit_PrefixedFrameRoundTrip_feed :
    Feeds 0x1FFF 1#16 0x2000 (0x2000 + (1#16 : Half).toNat + 14) tinyFrame 0x2000 [] tinyFrame ∧ 1 ≤ 15 ∧
    0x2000 + 15 ≤ 0x2000 + (1#16 : Half).toNat + 14 := ⟨.start, by decide, by decide⟩

end Sys2Proof.Tests
end

section
/-! PROOFS. The scope of a command: the inputs and parameters it leaves alone, the width of the address registers, the one
byte a single-byte arm reads, and the handle registers no command reads unwritten. -/

namespace Sys2Proof.Machine

/-! ### What every command leaves unchanged -/

/-- `t` has the inputs of `s`: the registers the host writes, the parameters and the host's moves to come. -/
structure SameInputs (s t : State) : Prop where
  cmd : t.cmd = s.cmd
  argBuf : t.argBuf = s.argBuf
  argLen : t.argLen = s.argLen
  argVer : t.argVer = s.argVer
  argQid : t.argQid = s.argQid
  argIn : t.argIn = s.argIn
  argInlen : t.argInlen = s.argInlen
  platform : t.platform = s.platform
  host : t.host = s.host

theorem recordFault_sameInputs (c : FaultCode) (s : State) : SameInputs s (recordFault c s) := by constructor <;> rfl

theorem resync_sameInputs (s : State) : SameInputs s (resync s) := by constructor <;> rfl

theorem emitBytes_sameInputs {buf : Nat} {bytes : List Byte} {s t : State} (h : emitBytes buf bytes s = .next t) :
    SameInputs s t := by
  obtain ⟨_, rfl⟩ := emitBytes_next h
  constructor <;> rfl

theorem ByteEffect.sameInputs {b : Byte} {s t : State} (h : ByteEffect b s t) : SameInputs s t := by
  cases h <;> constructor <;> rfl

theorem GatherEffect.sameInputs {src inlen out n : Nat} {cap len off : Half} {s t : State}
    (h : GatherEffect src inlen s t out cap len off n) : SameInputs s t := by
  rw [h.after]
  constructor <;> rfl

theorem DecodeEffect.sameInputs {src inlen : Nat} {s t : State} (h : DecodeEffect src inlen s t) : SameInputs s t := by
  cases h with
  | byte _ _ effect => exact effect.sameInputs
  | gather _ _ _ _ _ _ effect => exact effect.sameInputs

/-- A command writes no register the host writes, no parameter and no move of the host (10_state.md R29, R32). -/
theorem exec_sameInputs {i : Instr} {s t : State} (h : exec i s = .next t) : SameInputs s t := by
  obtain ⟨c, _, rfl⟩ | ⟨_, _, _, _, _, he⟩ | ⟨_, rfl⟩ | ⟨_, _, _, _, _, _, _, he⟩ := exec_next h
  · exact recordFault_sameInputs c s
  · exact emitBytes_sameInputs he
  · exact resync_sameInputs s
  · exact he.sameInputs

theorem step_platform {s t : State} (h : step s = .next t) : t.platform = s.platform := by
  obtain ⟨_, rfl⟩ | ⟨_, _, _, _, rfl⟩ | ⟨_, _, _, _, _, _, rfl⟩ | ⟨_, _, _, _, _, _, he⟩ | ⟨_, o, _, rfl⟩ |
    ⟨_, _, _, _, rfl⟩ | ⟨_, _, rfl⟩ := step_cases h
  · rfl
  · rfl
  · rfl
  · exact (exec_sameInputs he).platform
  · exact writeOperand_platform o _
  · rfl
  · rfl

/-- Settles O15: a command keeps its inputs, and no move of the host writes a parameter. -/
theorem stepKeepsParameters : Obligations.StepKeepsParameters := fun _ _ => step_platform

/-! ### The `ADDR_W`-bit registers -/

theorem ByteEffect.resCons {b : Byte} {s t : State} (h : ByteEffect b s t) : t.resCons = .written 1 := by
  cases h <;> rfl

/-- A completed `DECODE` consumes no more than the chunk it was given, outside `GATH` because the chunk is not empty. -/
theorem DecodeEffect.resCons_le {src inlen : Nat} {s t : State} (nonempty : inlen ≠ 0)
    (h : DecodeEffect src inlen s t) : ∃ n, t.resCons = .written n ∧ n ≤ inlen := by
  cases h with
  | byte _ _ effect => exact ⟨1, effect.resCons, Nat.one_le_iff_ne_zero.mpr nonempty⟩
  | gather _ _ _ len off n effect =>
    refine ⟨n, by rw [effect.after, setDecodeResult_resCons], ?_⟩
    rw [effect.hn]
    exact Nat.min_le_left _ _

/-- A command leaves `RES_CONS` as it was, or counts at most the chunk's length there. -/
theorem exec_resCons {i : Instr} {s t : State} (h : exec i s = .next t) :
    t.resCons = s.resCons ∨ ∃ inlen n, s.argInlen = .written inlen ∧ t.resCons = .written n ∧ n ≤ inlen := by
  obtain ⟨c, _, rfl⟩ | ⟨_, _, _, _, _, he⟩ | ⟨_, rfl⟩ | ⟨_, _, inlen, _, _, hinlen, hz, he⟩ := exec_next h
  · exact .inl rfl
  · obtain ⟨_, rfl⟩ := emitBytes_next he
    exact .inl rfl
  · exact .inl rfl
  · obtain ⟨n, hn, hle⟩ := he.resCons_le hz
    exact .inr ⟨inlen, n, hinlen, hn, hle⟩

section
variable {s : State} {v : Nat} (inv : AddressInv s)
include inv

theorem AddressInv.argBuf (h : s.argBuf = .written v) : v < 2 ^ s.platform.addrW := inv v (.inl h)

theorem AddressInv.argIn (h : s.argIn = .written v) : v < 2 ^ s.platform.addrW := inv v (.inr (.inl h))

theorem AddressInv.argInlen (h : s.argInlen = .written v) : v < 2 ^ s.platform.addrW := inv v (.inr (.inr (.inl h)))

theorem AddressInv.resCons (h : s.resCons = .written v) : v < 2 ^ s.platform.addrW := inv v (.inr (.inr (.inr h)))

end

/-- With the same inputs, only `RES_CONS` can leave its `ADDR_W` bits. -/
theorem AddressInv.of_sameInputs {s t : State} (inv : AddressInv s) (same : SameInputs s t)
    (hcons : ∀ v, t.resCons = .written v → v < 2 ^ s.platform.addrW) : AddressInv t := by
  intro v hv
  rw [same.argBuf, same.argIn, same.argInlen] at hv
  rw [same.platform]
  obtain h | h | h | h := hv
  · exact inv.argBuf h
  · exact inv.argIn h
  · exact inv.argInlen h
  · exact hcons v h

theorem exec_keeps_addressInv {i : Instr} {s t : State} (h : exec i s = .next t) (inv : AddressInv s) :
    AddressInv t := by
  refine inv.of_sameInputs (exec_sameInputs h) fun v hv => ?_
  obtain hc | ⟨inlen, n, hinlen, hc, hle⟩ := exec_resCons h
  · exact inv.resCons (hc ▸ hv)
  · obtain rfl : n = v := Reg.written.inj (hc.symm.trans hv)
    exact hle.trans_lt (inv.argInlen hinlen)

theorem writeOperand_keeps_addressInv {s : State} (o : OperandWrite) (inv : AddressInv s) :
    AddressInv (writeOperand o s) := by
  have fits := addrBits_lt s.platform
  cases o with
  | argBuf a =>
    rintro v (h | h | h | h)
    · cases h; exact fits a
    · exact inv.argIn h
    · exact inv.argInlen h
    · exact inv.resCons h
  | argIn a =>
    rintro v (h | h | h | h)
    · exact inv.argBuf h
    · cases h; exact fits a
    · exact inv.argInlen h
    · exact inv.resCons h
  | argInlen a =>
    rintro v (h | h | h | h)
    · exact inv.argBuf h
    · exact inv.argIn h
    · cases h; exact fits a
    · exact inv.resCons h
  | argLen | argVer | argQid => exact inv

theorem powerOnReset_addressInv (s : State) : AddressInv (powerOnReset s) := by
  simp [AddressInv, State.reset]

theorem step_keeps_addressInv {s t : State} (inv : AddressInv s) (h : step s = .next t) : AddressInv t := by
  obtain ⟨_, rfl⟩ | ⟨_, _, _, _, rfl⟩ | ⟨_, _, _, _, _, _, rfl⟩ | ⟨_, _, _, _, _, _, he⟩ | ⟨_, o, _, rfl⟩ |
    ⟨_, _, _, _, rfl⟩ | ⟨_, _, rfl⟩ := step_cases h
  · exact inv
  · exact inv
  · exact inv
  · exact exec_keeps_addressInv he inv
  · exact writeOperand_keeps_addressInv o inv
  · exact inv
  · exact powerOnReset_addressInv _

/-- Settles O50: operand writes take `ADDR_W` bits, and `RES_CONS` counts at most `ARG_INLEN` bytes. -/
theorem stepKeepsAddressWidth : Obligations.StepKeepsAddressWidth := fun _ _ => step_keeps_addressInv

/-! ### `DECODE` outside `GATH` -/

/-- An arm that reads one byte is stuck where that byte is not admitted, once `RSV1` has found its capacity. -/
theorem decodeArm_stuck {src inlen : Nat} {s : State} (hu : s.decoder ≠ .uninit) (hg : s.decoder ≠ .gath)
    (hr : memAdmit s.platform src .read = false) (hcap : s.decoder = .rsv1 → s.argLen ≠ .unwritten) :
    decodeArm src inlen s = .fault .notAdmitted := by
  unfold decodeArm
  split
  case h_12 hd =>
    cases hc : s.argLen with
    | unwritten => exact absurd hc (hcap hd)
    | written cap =>
      simp only [armRsv1, hc, withRegister_written]
      exact withChunkByte_stuck _ hr
  case h_13 hd => exact absurd hd hg
  case h_16 hd => exact absurd hd hu
  all_goals exact withChunkByte_stuck _ hr

theorem ByteEffect.mem {b : Byte} {s t : State} (h : ByteEffect b s t) : t.mem = s.mem := by
  cases h <;> rfl

theorem ByteEffect.fault {b : Byte} {s t : State} (h : ByteEffect b s t) : t.fault = s.fault := by
  cases h <;> rfl

theorem ByteEffect.resFrame {b : Byte} {s t : State} (h : ByteEffect b s t) :
    t.resFrame = .written 0#16 ∨ s.decoder = .ft1 ∧ t.resKind = .written .frame := by
  cases h
  case complete _ at_ _ _ => exact .inr ⟨at_, rfl⟩
  all_goals exact .inl rfl

/-- Everything an arm that reads one byte can do when it answers a next state. -/
theorem decodeArm_next_byte {src inlen : Nat} {s t : State} (hu : s.decoder ≠ .uninit) (hg : s.decoder ≠ .gath)
    (h : decodeArm src inlen s = .next t) :
    ArmUnwritten s ∧ t = recordFault .unwrittenArg s ∨ ByteEffect (Memory.read s.mem src) s t := by
  obtain ⟨c, _, rfl, ⟨hun, rfl⟩ | hd | hd⟩ | ⟨_, _, effect⟩ | ⟨hd, _⟩ := decodeArm_next h
  · exact .inl ⟨hun, rfl⟩
  · exact absurd hd hg
  · exact absurd hd hu
  · exact .inr effect
  · exact absurd hd hg

/-! ### Changes a command does not see

A command answers the same after a change `f` of the state if it reads nothing that `f` changes and `f` commutes with
what it writes. -/

theorem next_comm {f : State → State} {t t' : State} (h : f t = t') : (.next t' : Answer) = mapNext f (.next t) :=
  congrArg _ h.symm

/-- Reading a register carries `f` through to what follows. -/
theorem withRegister_comm {α : Type} {f : State → State} {r r' : Reg α} {s : State} {k k' : α → Answer}
    (hr : r' = r) (fault : f (recordFault .unwrittenArg s) = recordFault .unwrittenArg (f s))
    (hk : ∀ v, k' v = mapNext f (k v)) : withRegister r' (f s) k' = mapNext f (withRegister r s k) := by
  subst hr
  cases r' with
  | unwritten => exact next_comm fault
  | written v => exact hk v

theorem ite_comm {f : State → State} {p p' : Prop} [Decidable p] [Decidable p'] {a a' b b' : Answer} (hp : p' ↔ p)
    (ha : a' = mapNext f a) (hb : b' = mapNext f b) :
    (if p' then a' else b') = mapNext f (if p then a else b) := by
  rw [ha, hb, apply_ite (mapNext f)]
  exact if_congr hp rfl rfl

theorem whenAdmitted_comm {f : State → State} {ok ok' : Bool} {k k' : Answer} (hok : ok' = ok)
    (hk : k' = mapNext f k) : whenAdmitted ok' k' = mapNext f (whenAdmitted ok k) := by
  subst hok hk
  cases ok' <;> rfl

/-- The arms that read one byte, at `src`, do not see `f`: it changes nothing they read, and commutes with the fault they
take and with each result they write. -/
structure ArmsBlindTo (f : State → State) (src : Nat) (s : State) : Prop where
  inputs : SameInputs s (f s)
  decoder : (f s).decoder = s.decoder
  byte : Memory.read (f s).mem src = Memory.read s.mem src
  len : s.decoder ∈ [DecoderState.len1, .rsv1] → (f s).len = s.len
  offset : s.decoder = .ft1 → (f s).offset = s.offset
  fault : ∀ c, f (recordFault c s) = recordFault c (f s)
  moved : ∀ k fr d, f (setDecodeResult k fr 1 { s with decoder := d }) =
    setDecodeResult k fr 1 { f s with decoder := d }
  movedLen : ∀ k fr d l, f (setDecodeResult k fr 1 { s with len := .written l, decoder := d }) =
    setDecodeResult k fr 1 { f s with len := .written l, decoder := d }
  movedOffset : ∀ k fr d o, f (setDecodeResult k fr 1 { s with offset := .written o, decoder := d }) =
    setDecodeResult k fr 1 { f s with offset := .written o, decoder := d }

section
variable {f : State → State} {src : Nat} {s : State}

theorem ArmsBlindTo.advance_comm (h : ArmsBlindTo f src s) (d : DecoderState) :
    advance d (f s) = mapNext f (advance d s) :=
  next_comm (h.moved .gather 0#16 d)

theorem ArmsBlindTo.framingError_comm (h : ArmsBlindTo f src s) (k : ResultKind) :
    framingError k (f s) = mapNext f (framingError k s) :=
  next_comm (h.moved k 0#16 .pfx0)

theorem ArmsBlindTo.withChunkByte_comm (h : ArmsBlindTo f src s) {k k' : Byte → Answer}
    (hk : ∀ b, k' b = mapNext f (k b)) : withChunkByte src (f s) k' = mapNext f (withChunkByte src s k) :=
  whenAdmitted_comm (by rw [h.inputs.platform]) (h.byte ▸ hk _)

theorem ArmsBlindTo.armPrefix_comm (h : ArmsBlindTo f src s) (d : DecoderState) :
    armPrefix d src (f s) = mapNext f (armPrefix d src s) :=
  h.withChunkByte_comm fun _ => ite_comm Iff.rfl (h.advance_comm d) (h.advance_comm .pfx0)

theorem ArmsBlindTo.armSkip_comm (h : ArmsBlindTo f src s) (d : DecoderState) :
    armSkip d src (f s) = mapNext f (armSkip d src s) :=
  h.withChunkByte_comm fun _ => h.advance_comm d

theorem ArmsBlindTo.armPreamble_comm (h : ArmsBlindTo f src s) (d : DecoderState) :
    armPreamble d src (f s) = mapNext f (armPreamble d src s) :=
  h.withChunkByte_comm fun _ => ite_comm Iff.rfl (h.advance_comm d) (h.framingError_comm .noHeader)

theorem ArmsBlindTo.armLen0_comm (h : ArmsBlindTo f src s) : armLen0 src (f s) = mapNext f (armLen0 src s) :=
  h.withChunkByte_comm fun _ => next_comm (h.movedLen .gather 0#16 .len1 _)

theorem ArmsBlindTo.armLen1_comm (h : ArmsBlindTo f src s) (at_ : s.decoder = .len1) :
    armLen1 src (f s) = mapNext f (armLen1 src s) :=
  h.withChunkByte_comm fun b =>
    withRegister_comm (h.len (by simp [at_])) (h.fault _) fun len =>
      next_comm (h.movedLen .gather 0#16 .rsv0 _)

theorem ArmsBlindTo.armRsv1_comm (h : ArmsBlindTo f src s) (at_ : s.decoder = .rsv1) :
    armRsv1 src (f s) = mapNext f (armRsv1 src s) :=
  withRegister_comm h.inputs.argLen (h.fault _) fun cap => h.withChunkByte_comm fun _ =>
    withRegister_comm (h.len (by simp [at_])) (h.fault _) fun len =>
      ite_comm (by rw [h.inputs.platform]) (h.framingError_comm .invalidLength)
        (next_comm (h.movedOffset .gather 0#16 .gath _))

theorem ArmsBlindTo.armFt0_comm (h : ArmsBlindTo f src s) : armFt0 src (f s) = mapNext f (armFt0 src s) :=
  h.withChunkByte_comm fun _ => ite_comm Iff.rfl (h.advance_comm .ft1) (h.framingError_comm .noTail)

theorem ArmsBlindTo.armFt1_comm (h : ArmsBlindTo f src s) (at_ : s.decoder = .ft1) :
    armFt1 src (f s) = mapNext f (armFt1 src s) :=
  h.withChunkByte_comm fun _ =>
    ite_comm Iff.rfl (withRegister_comm (h.offset at_) (h.fault _) fun fr => next_comm (h.moved .frame fr .pfx0))
      (h.framingError_comm .noTail)

/-- An arm that reads one byte answers the same after a change it does not see. -/
theorem ArmsBlindTo.decodeArm_comm (h : ArmsBlindTo f src s) (hg : s.decoder ≠ .gath) (inlen : Nat) :
    decodeArm src inlen (f s) = mapNext f (decodeArm src inlen s) := by
  unfold decodeArm
  rw [h.decoder]
  split
  case h_1 => exact h.armPrefix_comm .pfx1
  case h_2 => exact h.armPrefix_comm .pfx2
  case h_3 => exact h.armSkip_comm .pfx3
  case h_4 => exact h.armSkip_comm .aa1
  case h_5 => exact h.armPreamble_comm .aa2
  case h_6 => exact h.armPreamble_comm .aa3
  case h_7 => exact h.armPreamble_comm .aa4
  case h_8 => exact h.armPreamble_comm .len0
  case h_9 => exact h.armLen0_comm
  case h_10 hd => exact h.armLen1_comm hd
  case h_11 => exact h.armSkip_comm .rsv1
  case h_12 hd => exact h.armRsv1_comm hd
  case h_13 hd => exact absurd hd hg
  case h_14 => exact h.armFt0_comm
  case h_15 hd => exact h.armFt1_comm hd
  case h_16 => exact next_comm (h.fault .uninit)

end

/-- A `DECODE` outside `GATH` answers the same after a change that the single-byte arms do not see. -/
theorem execDecode_comm {f : State → State} {s : State} (blind : ∀ src, ArmsBlindTo f src s)
    (hg : s.decoder ≠ .gath) : exec .decode (f s) = mapNext f (exec .decode s) := by
  have h := blind 0
  exact ite_comm (by rw [h.decoder]) (next_comm (h.fault _)) <|
    withRegister_comm h.inputs.argIn (h.fault _) fun src =>
    withRegister_comm h.inputs.argInlen (h.fault _) fun inlen =>
    ite_comm Iff.rfl (next_comm (h.fault _)) ((blind src).decodeArm_comm hg inlen)

/-- The encoder commands and `INIT_DECODER` do not see `f`: it changes none of their inputs, and commutes with the faults
they take and with what they write. -/
structure EncoderBlindTo (f : State → State) (s : State) : Prop where
  inputs : SameInputs s (f s)
  fault : ∀ c, f (recordFault c s) = recordFault c (f s)
  emitted : ∀ n buf bytes, f (setEncodeResult n { s with mem := Memory.writeBytes s.mem buf bytes }) =
    setEncodeResult n { f s with mem := Memory.writeBytes (f s).mem buf bytes }
  resynced : f (resync s) = resync (f s)

theorem EncoderBlindTo.emitBytes_comm {f : State → State} {s : State} (h : EncoderBlindTo f s) (buf : Nat)
    (bytes : List Byte) : emitBytes buf bytes (f s) = mapNext f (emitBytes buf bytes s) :=
  whenAdmitted_comm (by rw [h.inputs.platform]) (next_comm (h.emitted _ buf bytes))

theorem EncoderBlindTo.exec_comm {f : State → State} {s : State} (h : EncoderBlindTo f s) {i : Instr}
    (hi : i ≠ .decode) : exec i (f s) = mapNext f (exec i s) := by
  cases i with
  | createHeader =>
    exact withRegister_comm h.inputs.argBuf (h.fault _) fun buf =>
      withRegister_comm h.inputs.argLen (h.fault _) fun len =>
      withRegister_comm h.inputs.argVer (h.fault _) fun ver =>
      ite_comm Iff.rfl (next_comm (h.fault _)) (h.emitBytes_comm buf _)
  | createFooter => exact withRegister_comm h.inputs.argBuf (h.fault _) fun buf => h.emitBytes_comm buf _
  | addQid =>
    exact withRegister_comm h.inputs.argBuf (h.fault _) fun buf =>
      withRegister_comm h.inputs.argQid (h.fault _) fun qid => h.emitBytes_comm buf _
  | initDecoder => exact next_comm h.resynced
  | decode => exact absurd rfl hi

/-- Outside `GATH`, no command sees a change that neither the single-byte arms nor the other commands see. -/
theorem exec_comm {f : State → State} {i : Instr} {s : State} (arms : ∀ src, ArmsBlindTo f src s)
    (encoder : EncoderBlindTo f s) (hg : s.decoder ≠ .gath) : exec i (f s) = mapNext f (exec i s) := by
  by_cases hi : i = .decode
  · subst hi
    exact execDecode_comm arms hg
  · exact encoder.exec_comm hi

/-- Memory that agrees at `src` is a change the single-byte arms do not see. -/
theorem armsBlindTo_mem {src : Nat} {s : State} {m : Memory} (hm : Memory.read m src = Memory.read s.mem src) :
    ArmsBlindTo (fun t => { t with mem := m }) src s where
  inputs := by constructor <;> rfl
  decoder := rfl
  byte := hm
  len _ := rfl
  offset _ := rfl
  fault _ := rfl
  moved _ _ _ := rfl
  movedLen _ _ _ _ := rfl
  movedOffset _ _ _ _ := rfl

/-- Settles O24: every arm but `GATH`'s answers through `withChunkByte`, and does what `ByteEffect` lists. -/
theorem singleByteArmsReadOneByte : Obligations.SingleByteArmsReadOneByte := by
  intro s src inlen hu hg hsrc hinlen hz
  rw [execDecode_ready hu hsrc hinlen hz]
  refine ⟨decodeArm_stuck hu hg, fun m hm => ?_, fun t ht => ?_⟩
  · rw [execDecode_ready (s := { s with mem := m }) hu hsrc hinlen hz]
    exact (armsBlindTo_mem hm).decodeArm_comm hg inlen
  · obtain ⟨hun, rfl⟩ | effect := decodeArm_next_byte hu hg ht
    · exact ⟨rfl, .inr ⟨hun, rfl⟩⟩
    · exact ⟨effect.mem, .inl ⟨effect.fault, effect.resCons, effect.resFrame⟩⟩

/-! ### `LEN` and `OFFSET` unwritten -/

/-- From `LEN1` to `FT1`, `LEN` has been written. -/
theorem HandleInv.len_written {s : State} (inv : HandleInv s)
    (hd : s.decoder ∈ [DecoderState.len1, .rsv0, .rsv1, .gath, .ft0, .ft1]) : s.len ≠ .unwritten := by
  intro hl
  simp only [List.mem_cons, List.not_mem_nil, or_false] at hd
  obtain hd | hd | hd | hd | hd | hd := hd <;> simp [HandleInv, hd, hl] at inv

/-- From `GATH` to `FT1`, `OFFSET` has been written. -/
theorem HandleInv.offset_written {s : State} (inv : HandleInv s)
    (hd : s.decoder ∈ [DecoderState.gath, .ft0, .ft1]) : s.offset ≠ .unwritten := by
  intro ho
  simp only [List.mem_cons, List.not_mem_nil, or_false] at hd
  obtain hd | hd | hd := hd <;> simp [HandleInv, hd, ho] at inv

/-- Give an unwritten `LEN` the contents `r`. -/
def giveLen (r : Reg Half) (t : State) : State := if t.len = .unwritten then { t with len := r } else t

/-- Give an unwritten `OFFSET` the contents `r`. -/
def giveOffset (r : Reg Half) (t : State) : State := if t.offset = .unwritten then { t with offset := r } else t

theorem giveLen_unwritten {r : Reg Half} {t : State} (h : t.len = .unwritten) :
    giveLen r t = { t with len := r } := if_pos h

theorem giveLen_written {r : Reg Half} {t : State} {l : Half} (h : t.len = .written l) : giveLen r t = t :=
  if_neg (by simp [h])

theorem giveOffset_unwritten {r : Reg Half} {t : State} (h : t.offset = .unwritten) :
    giveOffset r t = { t with offset := r } := if_pos h

theorem giveOffset_written {r : Reg Half} {t : State} {o : Half} (h : t.offset = .written o) :
    giveOffset r t = t := if_neg (by simp [h])

section
variable {s : State} {r : Reg Half}

theorem armsBlindTo_giveLen (inv : HandleInv s) (hl : s.len = .unwritten) (src : Nat) :
    ArmsBlindTo (giveLen r) src s where
  inputs := by rw [giveLen_unwritten hl]; constructor <;> rfl
  decoder := by rw [giveLen_unwritten hl]
  byte := by rw [giveLen_unwritten hl]
  len hd := absurd hl (inv.len_written
    ((by decide : [DecoderState.len1, .rsv1] ⊆ [.len1, .rsv0, .rsv1, .gath, .ft0, .ft1]) hd))
  offset hd := absurd hl (inv.len_written (by simp [hd]))
  fault c := by rw [giveLen_unwritten hl]; exact giveLen_unwritten hl
  moved k fr d := by rw [giveLen_unwritten hl]; exact giveLen_unwritten hl
  movedLen k fr d l := by rw [giveLen_unwritten hl]; exact giveLen_written rfl
  movedOffset k fr d o := by rw [giveLen_unwritten hl]; exact giveLen_unwritten hl

theorem armsBlindTo_giveOffset (inv : HandleInv s) (ho : s.offset = .unwritten) (src : Nat) :
    ArmsBlindTo (giveOffset r) src s where
  inputs := by rw [giveOffset_unwritten ho]; constructor <;> rfl
  decoder := by rw [giveOffset_unwritten ho]
  byte := by rw [giveOffset_unwritten ho]
  len _ := by rw [giveOffset_unwritten ho]
  offset hd := absurd ho (inv.offset_written (by simp [hd]))
  fault c := by rw [giveOffset_unwritten ho]; exact giveOffset_unwritten ho
  moved k fr d := by rw [giveOffset_unwritten ho]; exact giveOffset_unwritten ho
  movedLen k fr d l := by rw [giveOffset_unwritten ho]; exact giveOffset_unwritten ho
  movedOffset k fr d o := by rw [giveOffset_unwritten ho]; exact giveOffset_written rfl

theorem encoderBlindTo_giveLen (hl : s.len = .unwritten) : EncoderBlindTo (giveLen r) s where
  inputs := by rw [giveLen_unwritten hl]; constructor <;> rfl
  fault c := by rw [giveLen_unwritten hl]; exact giveLen_unwritten hl
  emitted n buf bytes := by rw [giveLen_unwritten hl]; exact giveLen_unwritten hl
  resynced := by rw [giveLen_unwritten hl]; exact giveLen_unwritten hl

theorem encoderBlindTo_giveOffset (ho : s.offset = .unwritten) : EncoderBlindTo (giveOffset r) s where
  inputs := by rw [giveOffset_unwritten ho]; constructor <;> rfl
  fault c := by rw [giveOffset_unwritten ho]; exact giveOffset_unwritten ho
  emitted n buf bytes := by rw [giveOffset_unwritten ho]; exact giveOffset_unwritten ho
  resynced := by rw [giveOffset_unwritten ho]; exact giveOffset_unwritten ho

end

/-- Settles O51: the invariant has `LEN` and `OFFSET` written wherever an arm reads them. -/
theorem handleNeverReadUnwritten : Obligations.HandleNeverReadUnwritten := by
  intro i s r inv
  refine ⟨fun hl => ?_, fun ho => ?_⟩
  · rw [← giveLen_unwritten hl]
    exact exec_comm (armsBlindTo_giveLen inv hl) (encoderBlindTo_giveLen hl)
      fun hd => inv.len_written (by simp [hd]) hl
  · rw [← giveOffset_unwritten ho]
    exact exec_comm (armsBlindTo_giveOffset inv ho) (encoderBlindTo_giveOffset ho)
      fun hd => inv.offset_written (by simp [hd]) ho

end Sys2Proof.Machine
end

section
/-! PROOFS. The register state: the host's moves and the registers they leave alone, which registers a command writes, and
the invariants of the handle and of the `DECODE` results (10_state.md). -/

namespace Sys2Proof.Machine

/-! ### The host's moves -/

section
variable {s : State} {rest : List HostMove}

theorem step_powerOn (h : s.host = .powerOn :: rest) : step s = .next (powerOnReset { s with host := rest }) := by
  simp only [step, fetch, h]

theorem step_operand {o : OperandWrite} (h : s.host = .operand o :: rest) :
    step s = .next (writeOperand o { s with host := rest }) := by
  simp only [step, fetch, h]

theorem step_command {w : Word} {i : Instr} (h : s.host = .cmd w :: rest) (live : s.Live) (legal : decode w = .ok i) :
    step s = exec i { s with host := rest, cmd := .written w } := by
  have accepted : acceptCmd w { s with host := rest } = .command i { s with host := rest, cmd := .written w } := by
    simp [acceptCmd, live, legal]
  simp only [step, fetch, h, accepted]

end

theorem withFetchWord_host (s : State) (w : Word) : (s.withFetchWord 32 w.toNat).host = .cmd w :: s.host := by
  simp only [State.withFetchWord, issueNext, Nat.mod_eq_of_lt w.isLt, BitVec.ofNat_toNat, BitVec.setWidth_eq]

/-- Settles O5: each table is read off the definition of its codes. -/
theorem registerCodesMatchTables : Obligations.RegisterCodesMatchTables := ⟨by decide, by decide, by decide⟩

/-- Settles O6, one register of the host's at a time. -/
theorem resetRegisterValues : Obligations.ResetRegisterValues := by
  intro r
  cases r <;> rfl

/-- Settles O7: power-on takes every register, but neither memory nor a parameter, from the reset state. -/
theorem powerOnResetsRegistersNotMemory : Obligations.PowerOnResetsRegistersNotMemory := by
  intro s rest h
  refine ⟨_, step_powerOn h, fun r => ?_, rfl, rfl⟩
  cases r <;> rfl

/-- Settles O8: the move is `writeOperand`, which updates one field. -/
theorem hostOperandWriteChangesOneRegister : Obligations.HostOperandWriteChangesOneRegister := by
  intro s rest o h
  rw [step_operand h]
  cases o <;> rfl

/-- Settles O11: a live codec accepts the word, and `withFetchWord` puts it first among the moves. -/
theorem stepRunsDecodedCommand : Obligations.StepRunsDecodedCommand :=
  ⟨fun _ _ _ _ h live legal => step_command h live legal,
    fun s w _ live legal => step_command (withFetchWord_host s w) live legal⟩

/-- Settles O14: a faulted codec accepts no `CMD` word, and of the other moves only power-on writes `FAULT`. -/
theorem faultChangedOnlyByPowerOn : Obligations.FaultChangedOnlyByPowerOn := by
  intro s t h faulted changed
  obtain ⟨_, rfl⟩ | ⟨_, _, _, _, rfl⟩ | ⟨_, _, _, _, live, _⟩ | ⟨_, _, _, _, live, _⟩ | ⟨_, o, _, rfl⟩ |
    ⟨_, _, _, _, rfl⟩ | ⟨rest, hpower, _⟩ := step_cases h
  · exact absurd rfl changed
  · exact absurd rfl changed
  · exact absurd live faulted
  · exact absurd live faulted
  · exact absurd (writeOperand_fault o _) changed
  · exact absurd rfl changed
  · exact ⟨rest, hpower⟩

/-! ### The registers a command writes -/

/-- `t` has the decoder's side of `s`: the handle, the `DECODE` results and the parameters. -/
structure SameDecoder (s t : State) : Prop where
  decoder : t.decoder = s.decoder
  len : t.len = s.len
  offset : t.offset = s.offset
  resKind : t.resKind = s.resKind
  resFrame : t.resFrame = s.resFrame
  resCons : t.resCons = s.resCons
  platform : t.platform = s.platform

theorem recordFault_sameDecoder (c : FaultCode) (s : State) : SameDecoder s (recordFault c s) := by
  constructor <;> rfl

theorem emitBytes_sameDecoder {buf : Nat} {bytes : List Byte} {s t : State} (h : emitBytes buf bytes s = .next t) :
    SameDecoder s t := by
  obtain ⟨_, rfl⟩ := emitBytes_next h
  constructor <;> rfl

/-- What a command does to the decoder's side: nothing, or `INIT_DECODER`'s or a completed `DECODE`'s effect. -/
theorem exec_decoder_cases {i : Instr} {s t : State} (h : exec i s = .next t) :
    SameDecoder s t ∨ (i = .initDecoder ∧ t = resync s) ∨
      (i = .decode ∧ ∃ src inlen, inlen ≠ 0 ∧ DecodeEffect src inlen s t) := by
  obtain ⟨c, _, rfl⟩ | ⟨_, _, _, _, _, he⟩ | hinit | ⟨hi, src, inlen, _, _, _, hz, he⟩ := exec_next h
  · exact .inl (recordFault_sameDecoder c s)
  · exact .inl (emitBytes_sameDecoder he)
  · exact .inr (.inl hinit)
  · exact .inr (.inr ⟨hi, src, inlen, hz, he⟩)

theorem ByteEffect.resLen {b : Byte} {s t : State} (h : ByteEffect b s t) : t.resLen = s.resLen := by
  cases h <;> rfl

theorem DecodeEffect.resLen {src inlen : Nat} {s t : State} (h : DecodeEffect src inlen s t) :
    t.resLen = s.resLen := by
  cases h with
  | byte _ _ effect => exact effect.resLen
  | gather _ _ _ _ _ _ effect => rw [effect.after]; rfl

theorem exec_decoder_resLen {i : Instr} {s t : State} (hi : i = .initDecoder ∨ i = .decode)
    (h : exec i s = .next t) : t.resLen = s.resLen := by
  obtain ⟨c, _, rfl⟩ | ⟨_, _, hni, hnd, _⟩ | ⟨_, rfl⟩ | ⟨_, _, _, _, _, _, _, he⟩ := exec_next h
  · rfl
  · exact absurd hi (not_or.mpr ⟨hni, hnd⟩)
  · rfl
  · exact he.resLen

/-- Settles O45: only `emitBytes` writes `RES_LEN`, only `DECODE` its results, and it and `INIT_DECODER` `STATE`. -/
theorem commandsKeepOtherRegisters : Obligations.CommandsKeepOtherRegisters := by
  intro i s t h
  have same := exec_sameInputs h
  refine ⟨same.cmd, same.argBuf, same.argLen, same.argVer, same.argQid, same.argIn, same.argInlen, same.host,
    fun hi => exec_decoder_resLen hi h, fun hd => ?_, fun hd hi => ?_⟩
  · obtain keep | ⟨_, rfl⟩ | ⟨hi, _⟩ := exec_decoder_cases h
    · exact ⟨keep.resKind, keep.resFrame, keep.resCons⟩
    · exact ⟨rfl, rfl, rfl⟩
    · exact absurd hi hd
  · obtain keep | ⟨hinit, _⟩ | ⟨hdec, _⟩ := exec_decoder_cases h
    · exact keep.decoder
    · exact absurd hinit hi
    · exact absurd hdec hd

theorem ByteEffect.len {b : Byte} {s t : State} (h : ByteEffect b s t) :
    t.len = s.len ∨ s.decoder ∈ [.len0, .len1] := by
  cases h
  case lengthLow at_ => simp [at_]
  case lengthHigh at_ _ => simp [at_]
  all_goals exact .inl rfl

theorem ByteEffect.offset {b : Byte} {s t : State} (h : ByteEffect b s t) :
    t.offset = s.offset ∨ s.decoder = .rsv1 := by
  cases h
  case validLength at_ _ _ _ _ => exact .inr at_
  all_goals exact .inl rfl

theorem DecodeEffect.len {src inlen : Nat} {s t : State} (h : DecodeEffect src inlen s t) :
    t.len = s.len ∨ s.decoder ∈ [.len0, .len1] := by
  cases h with
  | byte _ _ effect => exact effect.len
  | gather _ _ _ _ _ _ effect => rw [effect.after]; exact .inl rfl

theorem DecodeEffect.offset {src inlen : Nat} {s t : State} (h : DecodeEffect src inlen s t) :
    t.offset = s.offset ∨ s.decoder ∈ [.rsv1, .gath] := by
  cases h with
  | byte _ _ effect => exact effect.offset.imp_right fun at_ => by simp [at_]
  | gather at_ => simp [at_]

/-- Settles O38: of all effects of commands, two rows of `DECODE` write `LEN` and two write `OFFSET`. -/
theorem handleWrittenOnlyInItsStates : Obligations.HandleWrittenOnlyInItsStates := by
  intro i s t h
  obtain keep | ⟨_, rfl⟩ | ⟨hi, _, _, _, effect⟩ := exec_decoder_cases h
  · exact ⟨absurd keep.len, absurd keep.offset⟩
  · exact ⟨absurd rfl, absurd rfl⟩
  · exact ⟨fun hl => ⟨hi, effect.len.resolve_left hl⟩, fun ho => ⟨hi, effect.offset.resolve_left ho⟩⟩

/-- Only the length check of `RSV1` moves a single-byte arm to `GATH` (41_decoder.md R110). -/
theorem ByteEffect.enters_gather {b : Byte} {s t : State} (h : ByteEffect b s t) (hg : t.decoder = .gath) :
    ∃ l c : Half, t.len = .written l ∧ s.argLen = .written c ∧ l.toNat ≤ c.toNat ∧
      s.platform.ethMinLen ≤ l.toNat ∧ t.offset = .written 0#16 := by
  cases h
  case validLength cap len _ hcap hlen high low => exact ⟨len, cap, hlen, hcap, high, low, rfl⟩
  case zeroPrefix d at_ _ => obtain rfl : d = .gath := hg; simp at at_
  case skipped d at_ => obtain rfl : d = .gath := hg; simp at at_
  case preamble d at_ _ => obtain rfl : d = .gath := hg; simp at at_
  all_goals cases hg

/-- Settles O39: the command is a `DECODE` outside `GATH`, so its effect is that of `RSV1`'s length check. -/
theorem enteringGatherBoundsLength : Obligations.EnteringGatherBoundsLength := by
  intro i s t h hs ht
  obtain keep | ⟨_, rfl⟩ | ⟨_, _, _, _, ⟨_, _, effect⟩ | ⟨at_, _⟩⟩ := exec_decoder_cases h
  · exact absurd (keep.decoder.symm.trans ht) hs
  · cases ht
  · exact effect.enters_gather ht
  · exact absurd at_ hs

/-! ### The invariants of the handle and of the results -/

/-- What a step does to the decoder's side: nothing, power-on reset, or the effect of a command. -/
theorem step_decoder_cases {s t : State} (h : step s = .next t) :
    SameDecoder s t ∨ (∃ u, t = powerOnReset u) ∨ ∃ i u, SameDecoder s u ∧ exec i u = .next t := by
  obtain ⟨_, rfl⟩ | ⟨_, _, _, _, rfl⟩ | ⟨_, _, _, _, _, _, rfl⟩ | ⟨_, _, i, _, _, _, he⟩ | ⟨_, o, _, rfl⟩ |
    ⟨_, _, _, _, rfl⟩ | ⟨_, _, rfl⟩ := step_cases h
  · exact .inl (by constructor <;> rfl)
  · exact .inl (by constructor <;> rfl)
  · exact .inl (by constructor <;> rfl)
  · exact .inr (.inr ⟨i, _, by constructor <;> rfl, he⟩)
  · exact .inl (by constructor <;> simp)
  · exact .inl (by constructor <;> rfl)
  · exact .inr (.inl ⟨_, rfl⟩)

theorem HandleInv.of_sameDecoder {s t : State} (inv : HandleInv s) (same : SameDecoder s t) : HandleInv t := by
  unfold HandleInv
  rw [same.decoder, same.len, same.offset, same.platform]
  exact inv

theorem ResultInv.of_sameDecoder {s t : State} (inv : ResultInv s) (same : SameDecoder s t) : ResultInv t := by
  unfold ResultInv
  rw [same.resKind, same.resFrame, same.resCons, same.platform]
  exact inv

theorem powerOnReset_handleInv (s : State) : HandleInv (powerOnReset s) := ⟨rfl, rfl⟩

theorem powerOnReset_resultInv (s : State) : ResultInv (powerOnReset s) := .inl ⟨rfl, rfl, rfl⟩

/-- Settles O46: the reset state is its own power-on reset, and lists no byte of memory. -/
theorem resetMeetsTheInvariant : Obligations.ResetMeetsTheInvariant :=
  ⟨by decide, powerOnReset_handleInv State.reset, powerOnReset_resultInv State.reset,
    ⟨rfl, fun _ hc => nomatch hc⟩, powerOnReset_addressInv State.reset⟩

section
variable {s : State}

/-- Up to `LEN0` the handle is free. -/
theorem handleInv_of_early
    (hd : s.decoder ∈ [DecoderState.pfx0, .pfx1, .pfx2, .pfx3, .aa1, .aa2, .aa3, .aa4, .len0]) : HandleInv s := by
  simp only [List.mem_cons, List.not_mem_nil, or_false] at hd
  obtain hd | hd | hd | hd | hd | hd | hd | hd | hd := hd <;> simp [HandleInv, hd]

theorem HandleInv.at_rsv0 (inv : HandleInv s) (hd : s.decoder = .rsv0) : ∃ l, s.len = .written l := by
  simpa only [HandleInv, hd] using inv

theorem HandleInv.at_gath (inv : HandleInv s) (hd : s.decoder = .gath) :
    ∃ l o, s.len = .written l ∧ s.offset = .written o ∧ s.platform.ethMinLen ≤ l.toNat ∧ o.toNat < l.toNat := by
  simpa only [HandleInv, hd] using inv

theorem HandleInv.at_ft0 (inv : HandleInv s) (hd : s.decoder = .ft0) :
    ∃ l, s.len = .written l ∧ s.offset = .written l ∧ s.platform.ethMinLen ≤ l.toNat := by
  simpa only [HandleInv, hd] using inv

theorem HandleInv.at_ft1 (inv : HandleInv s) (hd : s.decoder = .ft1) :
    ∃ l, s.len = .written l ∧ s.offset = .written l ∧ s.platform.ethMinLen ≤ l.toNat := by
  simpa only [HandleInv, hd] using inv

theorem ethMinLen_pos (params : s.platform.WellFormed = true) : 1 ≤ s.platform.ethMinLen := by
  simp only [Config.Platform.WellFormed, decide_eq_true_eq] at params
  exact params.1

end

theorem ByteEffect.keeps_handleInv {b : Byte} {s t : State} (h : ByteEffect b s t)
    (params : s.platform.WellFormed = true) (inv : HandleInv s) : HandleInv t := by
  cases h
  case zeroPrefix d at_ _ => exact handleInv_of_early (by simp at at_ ⊢; tauto)
  case skipped d at_ =>
    by_cases hd : s.decoder = .rsv0
    · obtain rfl : d = .rsv1 := by simpa [hd] using at_
      exact inv.at_rsv0 hd
    · exact handleInv_of_early (by simp [hd] at at_ ⊢; tauto)
  case preamble d at_ _ => exact handleInv_of_early (by simp at at_ ⊢; tauto)
  case lengthLow => exact ⟨_, rfl, by simp; omega⟩
  case lengthHigh => exact ⟨_, rfl⟩
  case validLength len _ _ hlen _ low => exact ⟨len, 0#16, hlen, rfl, low, (ethMinLen_pos params).trans low⟩
  case footer at_ _ => exact inv.at_ft0 at_
  all_goals exact handleInv_of_early (by simp)

section
variable {src inlen out n : Nat} {cap len off : Half} {s t : State}

/-- The countdown of `GATH` is at least 1, so a chunk that is not empty moves at least one byte, and no more than are
left. -/
theorem GatherEffect.count_bounds (h : GatherEffect src inlen s t out cap len off n) (at_ : s.decoder = .gath)
    (nonempty : inlen ≠ 0) (inv : HandleInv s) :
    1 ≤ n ∧ off.toNat + n ≤ len.toNat ∧ s.platform.ethMinLen ≤ len.toNat := by
  obtain ⟨l, o, hl, ho, low, hlt⟩ := inv.at_gath at_
  obtain rfl : l = len := Reg.written.inj (hl.symm.trans h.hlen)
  obtain rfl : o = off := Reg.written.inj (ho.symm.trans h.hoff)
  have hn := h.hn
  omega

theorem GatherEffect.keeps_handleInv (h : GatherEffect src inlen s t out cap len off n) (at_ : s.decoder = .gath)
    (nonempty : inlen ≠ 0) (inv : HandleInv s) : HandleInv t := by
  obtain ⟨_, hle, low⟩ := h.count_bounds at_ nonempty inv
  rw [h.after]
  by_cases full : off.toNat + n = len.toNat
  · rw [if_pos full, full, BitVec.ofNat_toNat, BitVec.setWidth_eq]
    exact ⟨len, h.hlen, rfl, low⟩
  · rw [if_neg full]
    refine ⟨len, _, h.hlen, rfl, low, ?_⟩
    rw [BitVec.toNat_ofNat]
    exact (Nat.mod_le _ _).trans_lt (by omega)

end

theorem DecodeEffect.keeps_handleInv {src inlen : Nat} {s t : State} (h : DecodeEffect src inlen s t)
    (nonempty : inlen ≠ 0) (params : s.platform.WellFormed = true) (inv : HandleInv s) : HandleInv t := by
  cases h with
  | byte _ _ effect => exact effect.keeps_handleInv params inv
  | gather at_ _ _ _ _ _ effect => exact effect.keeps_handleInv at_ nonempty inv

theorem exec_keeps_handleInv {i : Instr} {s t : State} (h : exec i s = .next t)
    (params : s.platform.WellFormed = true) (inv : HandleInv s) : HandleInv t := by
  obtain keep | ⟨_, rfl⟩ | ⟨_, _, _, nonempty, effect⟩ := exec_decoder_cases h
  · exact inv.of_sameDecoder keep
  · exact handleInv_of_early (by simp)
  · exact effect.keeps_handleInv nonempty params inv

/-- Settles O47: the countdown of `GATH` reaches 0 exactly as `FT0` is entered, and every other row keeps the
invariant by its own check. -/
theorem stepKeepsHandleInvariant : Obligations.StepKeepsHandleInvariant := by
  intro s t params inv h
  obtain keep | ⟨u, rfl⟩ | ⟨i, u, same, he⟩ := step_decoder_cases h
  · exact inv.of_sameDecoder keep
  · exact powerOnReset_handleInv u
  · exact exec_keeps_handleInv he (same.platform ▸ params) (inv.of_sameDecoder same)

theorem setDecodeResult_resultInv {k : ResultKind} {f : Half} {n : Nat} {s : State} (consumed : 1 ≤ n)
    (frame : if k = .frame then s.platform.ethMinLen ≤ f.toNat else f = 0#16) :
    ResultInv (setDecodeResult k f n s) :=
  .inr ⟨k, f, n, rfl, rfl, rfl, consumed, frame⟩

theorem ByteEffect.establishes_resultInv {b : Byte} {s t : State} (h : ByteEffect b s t) (inv : HandleInv s) :
    ResultInv t := by
  cases h
  case complete f at_ hoff _ =>
    obtain ⟨l, _, ho, low⟩ := inv.at_ft1 at_
    obtain rfl : l = f := Reg.written.inj (ho.symm.trans hoff)
    exact setDecodeResult_resultInv le_rfl low
  all_goals exact setDecodeResult_resultInv le_rfl rfl

theorem DecodeEffect.establishes_resultInv {src inlen : Nat} {s t : State} (h : DecodeEffect src inlen s t)
    (nonempty : inlen ≠ 0) (inv : HandleInv s) : ResultInv t := by
  cases h with
  | byte _ _ effect => exact effect.establishes_resultInv inv
  | gather at_ _ _ _ _ _ effect =>
    obtain ⟨moved, _, _⟩ := effect.count_bounds at_ nonempty inv
    rw [effect.after]
    exact setDecodeResult_resultInv moved rfl

theorem exec_keeps_resultInv {i : Instr} {s t : State} (h : exec i s = .next t) (inv : HandleInv s)
    (results : ResultInv s) : ResultInv t := by
  obtain keep | ⟨_, rfl⟩ | ⟨_, _, _, nonempty, effect⟩ := exec_decoder_cases h
  · exact results.of_sameDecoder keep
  · exact results
  · exact effect.establishes_resultInv nonempty inv

/-- Settles O48: a completed `DECODE` writes the three results together, and the frame it reports is the `LEN` that
passed the length check. -/
theorem stepKeepsResultInvariant : Obligations.StepKeepsResultInvariant := by
  intro s t _ inv results h
  obtain keep | ⟨u, rfl⟩ | ⟨i, u, same, he⟩ := step_decoder_cases h
  · exact results.of_sameDecoder keep
  · exact powerOnReset_resultInv u
  · exact exec_keeps_resultInv he (inv.of_sameDecoder same) (results.of_sameDecoder same)

end Sys2Proof.Machine
end

section
/-! PROOFS. Caller memory: admission, the host's own store, the canonical form, and the bytes a command touches
(20_memory.md). -/

namespace Sys2Proof.Machine

/-! ### Admission and the host's store -/

/-- Settles O43: the width is the first conjunct of `MemAdmit`. -/
theorem noAddressBeyondSpaceAdmitted : Obligations.NoAddressBeyondSpaceAdmitted := fun _ _ _ => memAdmit_lt

theorem step_store {s : State} {rest : List HostMove} {a : Nat} {b : Byte} (h : s.host = .store a b :: rest) :
    step s = .next { s with mem := Memory.write s.mem (s.platform.addrBits a) b, host := rest } := by
  simp only [step, fetch, h]

/-- Settles O9: the move is one `Memory.write`. -/
theorem hostStoreChangesOneByte : Obligations.HostStoreChangesOneByte := by
  intro s rest a b h
  exact ⟨_, step_store h, rfl, Memory.read_write_same _ _ _, fun x hx => Memory.read_write_other _ _ hx⟩

/-- Admission of a range, by address. -/
theorem memAdmitAll_iff_range {p : Config.Platform} {kind : Config.AccessKind} {base n : Nat} :
    memAdmitAll p kind base n = true ↔ ∀ a, base ≤ a → a < base + n → memAdmit p a kind = true := by
  rw [memAdmitAll_iff]
  constructor
  · intro h a hlo hhi
    obtain ⟨i, rfl⟩ := Nat.exists_eq_add_of_le hlo
    exact h i (by omega)
  · intro h i hi
    exact h (base + i) (by omega) (by omega)

/-- An address of an admitted range is in the address space. -/
theorem lt_of_admitted_range {p : Config.Platform} {kind : Config.AccessKind} {base n a : Nat}
    (h : ∀ i < n, memAdmit p (base + i) kind = true) (ha : base ≤ a ∧ a < base + n) : a < 2 ^ p.addrW :=
  memAdmit_lt (memAdmitAll_iff_range.mp (memAdmitAll_iff.mpr h) a ha.1 ha.2)

/-! ### The memory invariant -/

/-- New memory in canonical form meets the invariant if each address it adds is in the address space. -/
theorem MemoryInv.of_mem {s t : State} (inv : MemoryInv s) (platform : t.platform = s.platform)
    (wf : Memory.wf t.mem = true) (listed : ∀ c ∈ t.mem, c.1 < 2 ^ s.platform.addrW ∨ c ∈ s.mem) :
    MemoryInv t := by
  refine ⟨wf, fun c hc => ?_⟩
  rw [platform]
  exact (listed c hc).elim id (inv.2 c)

theorem MemoryInv.of_same_mem {s t : State} (inv : MemoryInv s) (platform : t.platform = s.platform)
    (mem : t.mem = s.mem) : MemoryInv t :=
  inv.of_mem platform (mem ▸ inv.1) fun _ hc => .inr (mem ▸ hc)

theorem emitBytes_keeps_memoryInv {buf : Nat} {bytes : List Byte} {s t : State}
    (h : emitBytes buf bytes s = .next t) (inv : MemoryInv s) : MemoryInv t := by
  obtain ⟨admitted, rfl⟩ := emitBytes_next h
  exact inv.of_mem rfl (Memory.wf_writeBytes buf bytes inv.1) fun c hc =>
    (Memory.listed_writeBytes hc).imp_left (lt_of_admitted_range admitted)

theorem GatherEffect.keeps_memoryInv {src inlen out n : Nat} {cap len off : Half} {s t : State}
    (h : GatherEffect src inlen s t out cap len off n) (inv : MemoryInv s) : MemoryInv t := by
  rw [h.after]
  exact inv.of_mem rfl (Memory.wf_copy src _ n inv.1) fun c hc =>
    (Memory.listed_copy hc).imp_left (lt_of_admitted_range h.writable)

theorem DecodeEffect.keeps_memoryInv {src inlen : Nat} {s t : State} (h : DecodeEffect src inlen s t)
    (inv : MemoryInv s) : MemoryInv t := by
  cases h with
  | byte _ _ effect => exact inv.of_same_mem effect.sameInputs.platform effect.mem
  | gather _ _ _ _ _ _ effect => exact effect.keeps_memoryInv inv

theorem exec_keeps_memoryInv {i : Instr} {s t : State} (h : exec i s = .next t) (inv : MemoryInv s) :
    MemoryInv t := by
  obtain ⟨_, _, rfl⟩ | ⟨_, _, _, _, _, he⟩ | ⟨_, rfl⟩ | ⟨_, _, _, _, _, _, _, he⟩ := exec_next h
  · exact inv
  · exact emitBytes_keeps_memoryInv he inv
  · exact inv
  · exact he.keeps_memoryInv inv

/-- Settles O49: a command writes admitted addresses only, a host store takes its address's low `ADDR_W` bits, and every
write keeps the canonical form. -/
theorem stepKeepsMemoryInvariant : Obligations.StepKeepsMemoryInvariant := by
  intro s t inv h
  obtain ⟨_, rfl⟩ | ⟨_, _, _, _, rfl⟩ | ⟨_, _, _, _, _, _, rfl⟩ | ⟨_, _, _, _, _, _, he⟩ | ⟨_, o, _, rfl⟩ |
    ⟨_, a, b, _, rfl⟩ | ⟨_, _, rfl⟩ := step_cases h
  · exact inv
  · exact inv
  · exact inv
  · exact exec_keeps_memoryInv he inv
  · exact inv.of_same_mem (writeOperand_platform o _) (writeOperand_mem o _)
  · exact inv.of_mem rfl (Memory.wf_write _ b inv.1) fun c hc =>
      (Memory.listed_write hc).imp_left fun ha => ha.trans_lt (addrBits_lt s.platform a)
  · exact inv

/-! ### The bytes a command touches -/

/-- Every byte the command touches is admitted. -/
def AllAdmitted (i : Instr) (s : State) : Prop := ∀ a kind, Touches i s a kind → memAdmit s.platform a kind = true

theorem touches_emitted {i : Instr} {s : State} {buf : Nat} {bytes : List Byte} (h : emitted i s buf bytes) (a : Nat)
    (kind : Config.AccessKind) : Touches i s a kind ↔ kind = .write ∧ buf ≤ a ∧ a < buf + bytes.length := by
  obtain ⟨hbuf, h⟩ := h
  cases i with
  | createHeader =>
    obtain ⟨len, ver, _, _, _, rfl⟩ := h
    simp [Touches, hbuf, headerBytes]
  | createFooter => subst h; simp [Touches, hbuf, footerBytes]
  | addQid =>
    obtain ⟨qid, _, rfl⟩ := h
    simp [Touches, hbuf, qidBytes]
  | initDecoder => exact h.elim
  | decode => exact h.elim

theorem allAdmitted_emitted {i : Instr} {s : State} {buf : Nat} {bytes : List Byte} (h : emitted i s buf bytes) :
    memAdmitAll s.platform .write buf bytes.length = true ↔ AllAdmitted i s := by
  simp [memAdmitAll_iff_range, AllAdmitted, touches_emitted h]

theorem allAdmitted_byte {s : State} {src : Nat} (hg : s.decoder ≠ .gath) (hsrc : s.argIn = .written src) :
    memAdmit s.platform src .read = true ↔ AllAdmitted .decode s := by
  simp [AllAdmitted, Touches, hg, hsrc]

/-- The two rows of `GATH` in the table of 20_memory.md R53. -/
theorem touches_gather {s : State} {src inlen out : Nat} {len off : Half} (hg : s.decoder = .gath)
    (hsrc : s.argIn = .written src) (hinlen : s.argInlen = .written inlen) (hout : s.argBuf = .written out)
    (hlen : s.len = .written len) (hoff : s.offset = .written off) (a : Nat) :
    (Touches .decode s a .read ↔ src ≤ a ∧ a < src + min inlen (len.toNat - off.toNat)) ∧
    (Touches .decode s a .write ↔
      out + off.toNat ≤ a ∧ a < out + off.toNat + min inlen (len.toNat - off.toNat)) := by
  simp [Touches, hg, hsrc, hinlen, hout, hlen, hoff]

theorem allAdmitted_gather {s : State} {src inlen out : Nat} {len off : Half} (hg : s.decoder = .gath)
    (hsrc : s.argIn = .written src) (hinlen : s.argInlen = .written inlen) (hout : s.argBuf = .written out)
    (hlen : s.len = .written len) (hoff : s.offset = .written off) :
    (memAdmitAll s.platform .read src (min inlen (len.toNat - off.toNat)) &&
      memAdmitAll s.platform .write (out + off.toNat) (min inlen (len.toNat - off.toNat))) = true ↔
      AllAdmitted .decode s := by
  have touched := touches_gather hg hsrc hinlen hout hlen hoff
  rw [Bool.and_eq_true, memAdmitAll_iff_range, memAdmitAll_iff_range]
  constructor
  · rintro ⟨hr, hw⟩ a kind ha
    cases kind with
    | read => exact and_imp.mpr (hr a) ((touched a).1.mp ha)
    | write => exact and_imp.mpr (hw a) ((touched a).2.mp ha)
  · intro all
    exact ⟨fun a lo hi => all a .read ((touched a).1.mpr ⟨lo, hi⟩),
      fun a lo hi => all a .write ((touched a).2.mpr ⟨lo, hi⟩)⟩

/-! ### How a command answers -/

theorem firstFailure_ne_none {l : List (Bool × FaultCode)} {c : FaultCode} (h : (true, c) ∈ l) :
    firstFailure l ≠ none := by
  induction l with
  | nil => cases h
  | cons d l ih =>
    obtain ⟨failed, cause⟩ := d
    cases failed with
    | true => simp [firstFailure]
    | false => exact ih (by simpa using h)

/-- How a command answers: it takes the fault of a check that fails, or it goes on exactly when every byte it touches is
admitted, and is stuck otherwise. A command that touches no byte may also take a fault no check lists, for an
unwritten `LEN` or `OFFSET` (log 10). -/
inductive GuardedAnswer (i : Instr) (s : State) : Answer → Prop where
  | faulted (c : FaultCode) (cause : c ≠ .none)
      (failed : (∃ a kind, Touches i s a kind) → (true, c) ∈ preconditionChecks i s) :
      GuardedAnswer i s (.next (recordFault c s))
  | guarded (ok : Bool) (t : State) (admitted : ok = true ↔ AllAdmitted i s) :
      GuardedAnswer i s (whenAdmitted ok (.next t))

section
variable {i : Instr} {s : State}

theorem GuardedAnswer.withRegister {α : Type} {r : Reg α} {k : α → Answer}
    (failed : r = .unwritten → (∃ a kind, Touches i s a kind) → (true, .unwrittenArg) ∈ preconditionChecks i s)
    (hk : ∀ v, r = .written v → GuardedAnswer i s (k v)) : GuardedAnswer i s (withRegister r s k) := by
  cases r with
  | unwritten => exact .faulted .unwrittenArg (by decide) (failed rfl)
  | written v => exact hk v rfl

theorem GuardedAnswer.check {p : Prop} [Decidable p] {c : FaultCode} {k : Answer} (cause : c ≠ .none)
    (failed : p → (true, c) ∈ preconditionChecks i s) (hk : ¬p → GuardedAnswer i s k) :
    GuardedAnswer i s (if p then raiseFault c s else k) := by
  split
  case isTrue hp => exact .faulted c cause fun _ => failed hp
  case isFalse hp => exact hk hp

theorem GuardedAnswer.emitBytes {buf : Nat} {bytes : List Byte} (h : emitted i s buf bytes) :
    GuardedAnswer i s (emitBytes buf bytes s) :=
  .guarded _ _ (allAdmitted_emitted h)

/-- Once every byte is admitted the answer is a next state, so only admission can stick. -/
theorem GuardedAnswer.stuck {ans : Answer} (h : GuardedAnswer i s ans) (hans : ans = .fault .notAdmitted) :
    ¬AllAdmitted i s := by
  cases h with
  | faulted => cases hans
  | guarded ok t admitted =>
    cases ok with
    | true => cases hans
    | false => exact fun all => absurd (admitted.mpr all) (by decide)

theorem GuardedAnswer.live {ans : Answer} {t : State} (h : GuardedAnswer i s ans) (hans : ans = .next t)
    (live : t.Live) : AllAdmitted i s := by
  cases h with
  | faulted c cause => cases hans; exact absurd live cause
  | guarded ok _ admitted => exact admitted.mp (whenAdmitted_next hans).1

theorem GuardedAnswer.eq_stuck {ans : Answer} (h : GuardedAnswer i s ans)
    (pass : firstFailure (preconditionChecks i s) = none) {a : Nat} {kind : Config.AccessKind}
    (touched : Touches i s a kind) (unadmitted : memAdmit s.platform a kind = false) :
    ans = .fault .notAdmitted := by
  cases h with
  | faulted c _ failed => exact absurd pass (firstFailure_ne_none (failed ⟨a, kind, touched⟩))
  | guarded ok t admitted =>
    cases ok with
    | true => exact absurd (admitted.mp rfl a kind touched) (by simp [unadmitted])
    | false => rfl

end

/-! ### The arms of `DECODE` -/

/-- The answer is a next state. -/
def Completes (ans : Answer) : Prop := ∃ t, ans = .next t

theorem completes_next (t : State) : Completes (.next t) := ⟨t, rfl⟩

theorem completes_ite {p : Prop} [Decidable p] {x y : Answer} (hx : Completes x) (hy : Completes y) :
    Completes (if p then x else y) := by
  split
  · exact hx
  · exact hy

theorem completes_withRegister {α : Type} {r : Reg α} {s : State} {k : α → Answer} (hk : ∀ v, Completes (k v)) :
    Completes (withRegister r s k) := by
  cases r with
  | unwritten => exact completes_next _
  | written v => exact hk v

theorem withChunkByte_guarded {src : Nat} {s : State} {k : Byte → Answer} (hk : ∀ b, Completes (k b)) :
    ∃ t, withChunkByte src s k = whenAdmitted (memAdmit s.platform src .read) (.next t) := by
  obtain ⟨t, ht⟩ := hk (Memory.read s.mem src)
  exact ⟨t, congrArg _ ht⟩

/-- An arm that reads one byte goes on exactly when the byte is admitted, once `RSV1` has found its capacity. -/
theorem decodeArm_guarded {src inlen : Nat} {s : State} (hu : s.decoder ≠ .uninit) (hg : s.decoder ≠ .gath)
    (hcap : s.decoder = .rsv1 → s.argLen ≠ .unwritten) :
    ∃ t, decodeArm src inlen s = whenAdmitted (memAdmit s.platform src .read) (.next t) := by
  unfold decodeArm
  split
  case h_10 => exact withChunkByte_guarded fun _ => completes_withRegister fun _ => completes_next _
  case h_12 hd =>
    cases hc : s.argLen with
    | unwritten => exact absurd hc (hcap hd)
    | written cap =>
      simp only [armRsv1, hc, withRegister_written]
      exact withChunkByte_guarded fun _ => completes_withRegister fun _ =>
        completes_ite (completes_next _) (completes_next _)
  case h_13 hd => exact absurd hd hg
  case h_15 =>
    exact withChunkByte_guarded fun _ =>
      completes_ite (completes_withRegister fun _ => completes_next _) (completes_next _)
  case h_16 hd => exact absurd hd hu
  case h_3 | h_4 | h_9 | h_11 => exact withChunkByte_guarded fun _ => completes_next _
  all_goals exact withChunkByte_guarded fun _ => completes_ite (completes_next _) (completes_next _)

theorem gathFails_written {s : State} {src inlen out : Nat} {cap len off : Half} (hsrc : s.argIn = .written src)
    (hinlen : s.argInlen = .written inlen) (hout : s.argBuf = .written out) (hcap : s.argLen = .written cap)
    (hlen : s.len = .written len) (hoff : s.offset = .written off) (bad : Nat → Nat → Nat → Nat → Nat → Bool) :
    gathFails s bad = bad src out (min inlen (len.toNat - off.toNat)) off.toNat cap.toNat := by
  simp only [gathFails, hsrc, hinlen, hout, hcap, hlen, hoff, Reg.fails]

theorem armGath_guarded {s : State} {src inlen : Nat} (hg : s.decoder = .gath) (hsrc : s.argIn = .written src)
    (hinlen : s.argInlen = .written inlen) : GuardedAnswer .decode s (armGath src inlen s) := by
  refine .withRegister (fun hout _ => by simp [preconditionChecks, hg, hout, Reg.isUnwritten]) fun out hout => ?_
  refine .withRegister (fun hcap _ => by simp [preconditionChecks, hg, hcap, Reg.isUnwritten]) fun cap hcap => ?_
  refine .withRegister (fun hlen ⟨a, kind, touched⟩ => by simp [Touches, hg, hlen] at touched) fun len hlen => ?_
  refine .withRegister (fun hoff ⟨a, kind, touched⟩ => by simp [Touches, hg, hoff] at touched) fun off hoff => ?_
  have fails := gathFails_written hsrc hinlen hout hcap hlen hoff
  refine .check (by decide) (fun exceeds => by simp [preconditionChecks, hg, fails, exceeds]) fun _ => ?_
  refine .check (by decide) (fun meet => ?_) fun _ => ?_
  · simpa [preconditionChecks, hg, fails] using rangesMeet_iff.mp meet
  · exact .guarded _ _ (allAdmitted_gather hg hsrc hinlen hout hlen hoff)

theorem decodeArm_guardedAnswer {s : State} {src inlen : Nat} (hu : s.decoder ≠ .uninit)
    (hsrc : s.argIn = .written src) (hinlen : s.argInlen = .written inlen) :
    GuardedAnswer .decode s (decodeArm src inlen s) := by
  by_cases hg : s.decoder = .gath
  · have arm : decodeArm src inlen s = armGath src inlen s := by simp only [decodeArm, hg]
    exact arm ▸ armGath_guarded hg hsrc hinlen
  by_cases hcap : s.decoder = .rsv1 ∧ s.argLen = .unwritten
  · obtain ⟨hd, hcap⟩ := hcap
    have arm : decodeArm src inlen s = .next (recordFault .unwrittenArg s) := by
      simp only [decodeArm, hd, armRsv1, hcap, withRegister_unwritten]
    exact arm ▸ .faulted _ (by decide) fun _ => by simp [preconditionChecks, hd, hcap, Reg.isUnwritten]
  · obtain ⟨t, arm⟩ := decodeArm_guarded (src := src) (inlen := inlen) hu hg fun hd hc => hcap ⟨hd, hc⟩
    exact arm ▸ .guarded _ t (allAdmitted_byte hg hsrc)

/-- Every command takes the fault of a failed check, or goes on exactly when the bytes it touches are admitted. -/
theorem exec_guardedAnswer (i : Instr) (s : State) : GuardedAnswer i s (exec i s) := by
  cases i with
  | createHeader =>
    refine .withRegister (fun h _ => by simp [preconditionChecks, h, Reg.isUnwritten]) fun buf hbuf => ?_
    refine .withRegister (fun h _ => by simp [preconditionChecks, h, Reg.isUnwritten]) fun len hlen => ?_
    refine .withRegister (fun h _ => by simp [preconditionChecks, h, Reg.isUnwritten]) fun ver hver => ?_
    refine .check (by decide) (fun h => ?_) fun h => ?_
    · simpa [preconditionChecks, hver, Reg.fails, Config.verW] using h
    · exact .emitBytes ⟨hbuf, len, ver, hlen, hver, Nat.lt_of_not_le h, rfl⟩
  | createFooter =>
    exact .withRegister (fun h _ => by simp [preconditionChecks, h, Reg.isUnwritten]) fun buf hbuf =>
      .emitBytes ⟨hbuf, rfl⟩
  | addQid =>
    refine .withRegister (fun h _ => by simp [preconditionChecks, h, Reg.isUnwritten]) fun buf hbuf => ?_
    refine .withRegister (fun h _ => by simp [preconditionChecks, h, Reg.isUnwritten]) fun qid hqid => ?_
    exact .emitBytes ⟨hbuf, qid, hqid, rfl⟩
  | initDecoder => exact .guarded true _ (iff_of_true rfl fun _ _ touched => touched.elim)
  | decode =>
    refine .check (by decide) (fun hu => by simp [preconditionChecks, hu]) fun hu => ?_
    refine .withRegister (fun h _ => by simp [preconditionChecks, h, Reg.isUnwritten]) fun src hsrc => ?_
    refine .withRegister (fun h _ => by simp [preconditionChecks, h, Reg.isUnwritten]) fun inlen hinlen => ?_
    refine .check (by decide) (fun hz => by simp [preconditionChecks, hinlen, hz, Reg.fails]) fun _ => ?_
    exact decodeArm_guardedAnswer hu hsrc hinlen

/-- Settles O42: admission is asked once, after the checks, for exactly the bytes the command touches. -/
theorem stuckExactlyWhenUnadmitted : Obligations.StuckExactlyWhenUnadmitted := by
  intro i s
  have answer := exec_guardedAnswer i s
  refine ⟨fun stuck => ?_, fun t ht live => answer.live ht live, fun pass _ ⟨a, kind, touched, unadmitted⟩ => ?_⟩
  · simpa [AllAdmitted] using answer.stuck stuck
  · exact answer.eq_stuck pass touched unadmitted

end Sys2Proof.Machine
end

section
/-! PROOFS. The encodings (30_encoding.md): which `CMD` words are legal and what they select, the header's length and
version as numbers, and the operand registers each command's format names. -/

namespace Sys2Proof

/-! ### `CMD` words -/

theorem cmdOp_toNat (w : Word) : (cmdOp w).toNat = w.toNat % 8 := by
  simp [cmdOp, BitVec.extractLsb'_toNat]

theorem cmdReserved_toNat (w : Word) : (cmdReserved w).toNat = w.toNat / 8 := by
  simp only [cmdReserved, BitVec.extractLsb'_toNat, Nat.shiftRight_eq_div_pow]
  omega

theorem cmdReserved_eq_zero_iff (w : Word) : cmdReserved w = 0#29 ↔ w.toNat / 8 = 0 := by
  rw [← cmdReserved_toNat, ← BitVec.toNat_inj]
  exact Iff.rfl

theorem encode_toNat (i : Instr) : (encode i).toNat = i.op.toNat := by
  cases i <;> rfl

/-- The opcodes in use are 1 to 5 (30_encoding.md R70). -/
theorem exists_op_iff {n : Nat} : (∃ i : Instr, n = i.op.toNat) ↔ 1 ≤ n ∧ n ≤ 5 := by
  constructor
  · rintro ⟨i, rfl⟩
    cases i <;> decide
  · rintro ⟨low, high⟩
    interval_cases n
    exacts [⟨.createHeader, rfl⟩, ⟨.createFooter, rfl⟩, ⟨.addQid, rfl⟩, ⟨.initDecoder, rfl⟩, ⟨.decode, rfl⟩]

/-- A word whose reserved bits are clear decodes by its `OP` (30_encoding.md R70). -/
theorem decode_eq_ok_iff_op {w : Word} (clear : cmdReserved w = 0#29) (i : Instr) :
    decode w = .ok i ↔ (cmdOp w).toNat = i.op.toNat := by
  rw [decode, if_pos clear]
  split
  case h_6 h1 h2 h3 h4 h5 =>
    have unused : ¬∃ i : Instr, (cmdOp w).toNat = i.op.toNat := by
      simp only [imp_false] at h1 h2 h3 h4 h5
      rw [exists_op_iff]
      omega
    exact iff_of_false (by simp) fun h => unused ⟨i, h⟩
  all_goals
    rename_i hop
    rw [hop]
    cases i <;> decide

/-- A word is a command exactly when its number is the command's opcode: the bits above `OP` are 0. -/
theorem decode_eq_ok_iff (w : Word) (i : Instr) : decode w = .ok i ↔ w.toNat = i.op.toNat := by
  have small : i.op.toNat < 8 := i.op.isLt
  by_cases clear : cmdReserved w = 0#29
  · rw [decode_eq_ok_iff_op clear, cmdOp_toNat]
    rw [cmdReserved_eq_zero_iff] at clear
    omega
  · rw [decode, if_neg clear]
    rw [cmdReserved_eq_zero_iff] at clear
    exact iff_of_false (by simp) (by omega)

/-- A word is illegal exactly when no opcode in use is its number (30_encoding.md R72). -/
theorem exists_decode_error_iff (w : Word) :
    (∃ e, decode w = .error e) ↔ w.toNat % 8 = 0 ∨ w.toNat % 8 = 6 ∨ w.toNat % 8 = 7 ∨ w.toNat / 8 ≠ 0 := by
  have legal : (∃ i, decode w = .ok i) ↔ 1 ≤ w.toNat ∧ w.toNat ≤ 5 := by
    simp only [decode_eq_ok_iff, exists_op_iff]
  have illegal : (∃ e, decode w = .error e) ↔ ¬∃ i, decode w = .ok i := by
    cases decode w <;> simp
  rw [illegal, legal]
  omega

/-- Settles O2: both directions compare the word's number with the opcodes. -/
theorem decodeEncodeAgree : Obligations.DecodeEncodeAgree := by
  refine ⟨fun w i => ?_, exists_decode_error_iff⟩
  rw [decode_eq_ok_iff, ← encode_toNat, BitVec.toNat_inj]

/-- Settles O1, one row of R70's table at a time. -/
theorem cmdWordsSelectTheirCommands : Obligations.CmdWordsSelectTheirCommands :=
  ⟨decode_createHeader, decode_createFooter, decode_addQid, decode_initDecoder, decode_decode⟩

end Sys2Proof

namespace Sys2Proof.Machine

theorem step_illegal {s : State} {rest : List HostMove} {w : Word} {e : DecodeError} (h : s.host = .cmd w :: rest)
    (live : s.Live) (illegal : decode w = .error e) :
    step s = .next (recordFault .illegalCmd { s with host := rest, cmd := .written w }) := by
  have faulted : acceptCmd w { s with host := rest } =
      .quiet (recordFault .illegalCmd { s with host := rest, cmd := .written w }) := by
    simp [acceptCmd, live, illegal]
  simp only [step, fetch, h, faulted]

/-- Settles O12: R72's words are those that do not decode, and for these a live codec records the fault. -/
theorem illegalCmdTakesFault : Obligations.IllegalCmdTakesFault := by
  intro s rest w h live illegal
  obtain ⟨e, he⟩ := (exists_decode_error_iff w).mpr illegal
  exact step_illegal h live he

/-! ### The header's length and version -/

/-- Byte 5 with a version: the low 5 bits are the length's, the top 3 are the version's (30_encoding.md R61). -/
theorem headerLenHigh_toNat_of_ne_zero (len : Half) {ver : Word} (hver : ver ≠ 0#32) :
    (headerLenHigh len ver).toNat = len.toNat / 2 ^ 8 % 2 ^ 5 + 2 ^ 5 * (ver.toNat % 8) := by
  have length : (len.extractLsb' 8 8 &&& 0x1F#8).toNat = len.toNat / 2 ^ 8 % 2 ^ 5 := by
    rw [BitVec.toNat_and, BitVec.extractLsb'_toNat, Nat.shiftRight_eq_div_pow]
    exact (Nat.and_two_pow_sub_one_eq_mod _ 5).trans (by omega)
  have version : ((ver.extractLsb' 0 3).setWidth 8 <<< 5).toNat = (ver.toNat % 8) <<< 5 := by
    simp [BitVec.extractLsb'_toNat, Nat.shiftLeft_eq]
    omega
  rw [headerLenHigh, if_neg hver, BitVec.toNat_or, length, version, Nat.or_comm,
    ← Nat.shiftLeft_add_eq_or_of_lt (Nat.mod_lt _ (by decide)), Nat.shiftLeft_eq]
  omega

/-- Header bytes 4 and 5 as a number: the length, its top three bits replaced by those of a nonzero version. -/
theorem headerLength_toNat (len : Half) (ver : Word) :
    (len.extractLsb' 0 8).toNat + 2 ^ 8 * (headerLenHigh len ver).toNat =
      if ver = 0#32 then len.toNat else len.toNat % 2 ^ 13 + 2 ^ 13 * (ver.toNat % 8) := by
  split
  case isTrue hver =>
    simp only [headerLenHigh, if_pos hver, BitVec.extractLsb'_toNat, Nat.shiftRight_eq_div_pow]
    omega
  case isFalse hver =>
    rw [headerLenHigh_toNat_of_ne_zero len hver, BitVec.extractLsb'_toNat, Nat.shiftRight_eq_div_pow]
    omega

/-- Settles O3: bytes 4 and 5 carry `V[2:0]` above the length, bytes 6 and 7 the other 16 bits of `V`. -/
theorem headerWordPacksLengthAndVersion : Obligations.HeaderWordPacksLengthAndVersion := by
  intro len ver fits
  refine ⟨_, _, _, _, rfl, ?_⟩
  rw [headerLength_toNat]
  by_cases hver : ver = 0#32
  · simp [hver]
  · simp only [if_neg hver, BitVec.extractLsb'_toNat, Nat.shiftRight_eq_div_pow]
    omega

/-- Settles O4: the version takes the place of exactly the top three bits of the length. -/
theorem decoderVisibleLengthEqualsLength : Obligations.DecoderVisibleLengthEqualsLength := by
  intro len ver _
  refine ⟨_, _, rfl, rfl, ?_⟩
  rw [headerLength_toNat]
  by_cases hver : ver = 0#32
  · simp [hver]
  · rw [if_neg hver]
    simp only [hver, false_or]
    omega

/-! ### Operand registers a format does not name -/

/-- A change of the operand registers, each by itself; a register not mentioned keeps its contents. -/
structure OperandChange where
  argBuf : Reg Nat → Reg Nat := id
  argLen : Reg Half → Reg Half := id
  argVer : Reg Word → Reg Word := id
  argQid : Reg Byte → Reg Byte := id
  argIn : Reg Nat → Reg Nat := id
  argInlen : Reg Nat → Reg Nat := id

/-- The state after the change. -/
def OperandChange.apply (f : OperandChange) (s : State) : State :=
  { s with
    argBuf := f.argBuf s.argBuf
    argLen := f.argLen s.argLen
    argVer := f.argVer s.argVer
    argQid := f.argQid s.argQid
    argIn := f.argIn s.argIn
    argInlen := f.argInlen s.argInlen }

/-- The change keeps the operand registers that the command's format names (30_encoding.md R71), of `DECODE`'s those that
its state reads (41_decoder.md R101). -/
def OperandChange.KeepsNamed (f : OperandChange) (s : State) : Instr → Prop
  | .createHeader =>
    f.argBuf s.argBuf = s.argBuf ∧ f.argLen s.argLen = s.argLen ∧ f.argVer s.argVer = s.argVer
  | .createFooter => f.argBuf s.argBuf = s.argBuf
  | .addQid => f.argBuf s.argBuf = s.argBuf ∧ f.argQid s.argQid = s.argQid
  | .initDecoder => True
  | .decode =>
    f.argIn s.argIn = s.argIn ∧ f.argInlen s.argInlen = s.argInlen ∧
    (s.decoder = .gath → f.argBuf s.argBuf = s.argBuf) ∧
    (s.decoder = .rsv1 ∨ s.decoder = .gath → f.argLen s.argLen = s.argLen)

section
variable (f : OperandChange) (s : State)

theorem OperandChange.emitBytes_comm (buf : Nat) (bytes : List Byte) :
    emitBytes buf bytes (f.apply s) = mapNext f.apply (emitBytes buf bytes s) :=
  whenAdmitted_comm rfl rfl

variable {f s}

theorem OperandChange.armRsv1_comm (hlen : f.argLen s.argLen = s.argLen) (src : Nat) :
    armRsv1 src (f.apply s) = mapNext f.apply (armRsv1 src s) :=
  withRegister_comm hlen rfl fun _ => whenAdmitted_comm rfl <|
    withRegister_comm rfl rfl fun _ => ite_comm Iff.rfl rfl rfl

theorem OperandChange.armGath_comm (hbuf : f.argBuf s.argBuf = s.argBuf) (hlen : f.argLen s.argLen = s.argLen)
    (src inlen : Nat) : armGath src inlen (f.apply s) = mapNext f.apply (armGath src inlen s) :=
  withRegister_comm hbuf rfl fun _ => withRegister_comm hlen rfl fun _ =>
    withRegister_comm rfl rfl fun _ => withRegister_comm rfl rfl fun _ =>
    ite_comm Iff.rfl rfl <| ite_comm Iff.rfl rfl <| whenAdmitted_comm rfl rfl

/-- Only the arms of `RSV1` and `GATH` read an operand register themselves. -/
theorem OperandChange.decodeArm_comm (hbuf : s.decoder = .gath → f.argBuf s.argBuf = s.argBuf)
    (hlen : s.decoder = .rsv1 ∨ s.decoder = .gath → f.argLen s.argLen = s.argLen) (src inlen : Nat) :
    decodeArm src inlen (f.apply s) = mapNext f.apply (decodeArm src inlen s) := by
  have decoder : (f.apply s).decoder = s.decoder := rfl
  unfold decodeArm
  rw [decoder]
  split
  case h_10 => exact whenAdmitted_comm rfl (withRegister_comm rfl rfl fun _ => rfl)
  case h_12 hd => exact armRsv1_comm (hlen (.inl hd)) src
  case h_13 hd => exact armGath_comm (hbuf hd) (hlen (.inr hd)) src inlen
  case h_15 => exact whenAdmitted_comm rfl (ite_comm Iff.rfl (withRegister_comm rfl rfl fun _ => rfl) rfl)
  case h_16 => rfl
  case h_3 | h_4 | h_9 | h_11 => exact whenAdmitted_comm rfl rfl
  all_goals exact whenAdmitted_comm rfl (ite_comm Iff.rfl rfl rfl)

/-- A command answers the same after a change that keeps the operand registers it names. -/
theorem OperandChange.exec_comm {i : Instr} (keeps : f.KeepsNamed s i) :
    exec i (f.apply s) = mapNext f.apply (exec i s) := by
  cases i with
  | createHeader =>
    obtain ⟨hbuf, hlen, hver⟩ := keeps
    exact withRegister_comm hbuf rfl fun buf => withRegister_comm hlen rfl fun len =>
      withRegister_comm hver rfl fun ver => ite_comm Iff.rfl rfl (f.emitBytes_comm s buf _)
  | createFooter => exact withRegister_comm keeps rfl fun buf => f.emitBytes_comm s buf _
  | addQid =>
    obtain ⟨hbuf, hqid⟩ := keeps
    exact withRegister_comm hbuf rfl fun buf => withRegister_comm hqid rfl fun qid => f.emitBytes_comm s buf _
  | initDecoder => rfl
  | decode =>
    obtain ⟨hin, hinlen, hbuf, hlen⟩ := keeps
    exact ite_comm Iff.rfl rfl <| withRegister_comm hin rfl fun src => withRegister_comm hinlen rfl fun inlen =>
      ite_comm Iff.rfl rfl (decodeArm_comm hbuf hlen src inlen)

end

/-- Settles O44: each of the changes keeps the registers the command names. -/
theorem unnamedOperandsNotRead : Obligations.UnnamedOperandsNotRead := by
  intro s buf src inlen ver len qid
  refine ⟨?_, ?_, ?_, ?_, fun hg => ?_, fun hg hr => ?_⟩
  · exact OperandChange.exec_comm (i := .createHeader)
      (f := { argQid := fun _ => qid, argIn := fun _ => src, argInlen := fun _ => inlen }) ⟨rfl, rfl, rfl⟩
  · exact OperandChange.exec_comm (i := .createFooter)
      (f := { argLen := fun _ => len, argVer := fun _ => ver, argQid := fun _ => qid, argIn := fun _ => src,
              argInlen := fun _ => inlen }) rfl
  · exact OperandChange.exec_comm (i := .addQid)
      (f := { argLen := fun _ => len, argVer := fun _ => ver, argIn := fun _ => src, argInlen := fun _ => inlen })
      ⟨rfl, rfl⟩
  · exact OperandChange.exec_comm (i := .decode) (f := { argVer := fun _ => ver, argQid := fun _ => qid })
      ⟨rfl, rfl, fun _ => rfl, fun _ => rfl⟩
  · exact OperandChange.exec_comm (i := .decode) (f := { argBuf := fun _ => buf })
      ⟨rfl, rfl, fun hd => absurd hd hg, fun _ => rfl⟩
  · exact OperandChange.exec_comm (i := .decode) (f := { argLen := fun _ => len })
      ⟨rfl, rfl, fun _ => rfl, fun hd => absurd hd (not_or.mpr ⟨hr, hg⟩)⟩

end Sys2Proof.Machine
end

section
/-! PROOFS. The encoder commands (40_encoder.md): the answer of each by the registers it names, what emitting bytes leaves
in memory, that the handle plays no part, and that a header and a footer can be written in either order. -/

namespace Sys2Proof.Machine

/-! ### Emitting bytes -/

section
variable {buf : Nat} {bytes : List Byte} {s : State}

theorem emitBytes_stuck {k : Nat} (hk : k < bytes.length) (h : memAdmit s.platform (buf + k) .write = false) :
    emitBytes buf bytes s = .fault .notAdmitted := by
  have refused : memAdmitAll s.platform .write buf bytes.length = false := by
    rw [← Bool.not_eq_true, memAdmitAll_iff]
    exact fun all => absurd (all k hk) (by simp [h])
  rw [emitBytes, refused, whenAdmitted_false]

/-- With every byte admitted, the bytes are in memory at rising addresses and `RES_LEN` holds their number. -/
theorem emitBytes_admitted (h : ∀ k < bytes.length, memAdmit s.platform (buf + k) .write = true) :
    ∃ t, emitBytes buf bytes s = .next t ∧
      t = { s with mem := t.mem, resLen := .written (BitVec.ofNat 16 bytes.length) } ∧
      (∀ k (hk : k < bytes.length), Memory.read t.mem (buf + k) = bytes[k]) ∧
      ∀ x, x < buf ∨ buf + bytes.length ≤ x → Memory.read t.mem x = Memory.read s.mem x := by
  refine ⟨_, by rw [emitBytes, memAdmitAll_iff.mpr h, whenAdmitted_true], rfl, fun k hk => ?_, fun x hx => ?_⟩
  · simp [Memory.read_writeBytes, hk]
  · exact (Memory.read_writeBytes s.mem buf bytes x).trans (dif_neg (by omega))

theorem emitBytes_mem {t : State} (h : emitBytes buf bytes s = .next t) :
    t.mem = Memory.writeBytes s.mem buf bytes := by
  obtain ⟨_, rfl⟩ := emitBytes_next h
  rfl

end

/-- Emitting two bytes, the footer's or a QID tag's: stuck, or both written (40_encoder.md R81, R82). -/
theorem emitBytes_pair (b : Nat) (x y : Byte) (s : State) :
    ((memAdmit s.platform b .write = false ∨ memAdmit s.platform (b + 1) .write = false) →
      emitBytes b [x, y] s = .fault .notAdmitted) ∧
    (memAdmit s.platform b .write = true → memAdmit s.platform (b + 1) .write = true →
      ∃ t, emitBytes b [x, y] s = .next t ∧ t = { s with mem := t.mem, resLen := .written 2#16 } ∧
        Memory.read t.mem b = x ∧ Memory.read t.mem (b + 1) = y ∧
        ∀ a, a < b ∨ b + 2 ≤ a → Memory.read t.mem a = Memory.read s.mem a) := by
  refine ⟨?_, fun h0 h1 => ?_⟩
  · rintro (h | h)
    · exact emitBytes_stuck (k := 0) (by simp) h
    · exact emitBytes_stuck (k := 1) (by simp) h
  · have admitted : ∀ k < [x, y].length, memAdmit s.platform (b + k) .write = true
      | 0, _ => h0
      | 1, _ => h1
    obtain ⟨t, ht, frame, written, others⟩ := emitBytes_admitted admitted
    exact ⟨t, ht, frame, written 0 (by simp), written 1 (by simp), others⟩

/-! ### The commands by their operands -/

/-- A register that is unwritten, or whose every value leads to `UNWRITTEN_ARG`, leads to `UNWRITTEN_ARG`. -/
theorem withRegister_unwrittenArg {α : Type} {r : Reg α} {s : State} {k : α → Answer}
    (hk : ∀ v, r = .written v → k v = .next (recordFault .unwrittenArg s)) :
    withRegister r s k = .next (recordFault .unwrittenArg s) := by
  cases r with
  | unwritten => rfl
  | written v => exact hk v rfl

section
variable {s : State} {b : Nat} {l : Half} {v : Word} {q : Byte}

theorem createHeader_unwritten (h : s.argBuf = .unwritten ∨ s.argLen = .unwritten ∨ s.argVer = .unwritten) :
    exec .createHeader s = .next (recordFault .unwrittenArg s) :=
  withRegister_unwrittenArg fun _ hbuf => withRegister_unwrittenArg fun _ hlen =>
    withRegister_unwrittenArg fun _ hver => by simp [hbuf, hlen, hver] at h

theorem createHeader_written (hbuf : s.argBuf = .written b) (hlen : s.argLen = .written l)
    (hver : s.argVer = .written v) :
    exec .createHeader s =
      if 2 ^ 19 ≤ v.toNat then .next (recordFault .versionRange s) else emitBytes b (headerBytes l v) s := by
  show execCreateHeader s = _
  simp only [execCreateHeader, hbuf, hlen, hver, withRegister_written]
  rfl

theorem createFooter_unwritten (h : s.argBuf = .unwritten) :
    exec .createFooter s = .next (recordFault .unwrittenArg s) :=
  withRegister_unwrittenArg fun _ hbuf => by simp [hbuf] at h

theorem createFooter_written (hbuf : s.argBuf = .written b) : exec .createFooter s = emitBytes b footerBytes s := by
  show execCreateFooter s = _
  rw [execCreateFooter, hbuf, withRegister_written]

theorem addQid_unwritten (h : s.argBuf = .unwritten ∨ s.argQid = .unwritten) :
    exec .addQid s = .next (recordFault .unwrittenArg s) :=
  withRegister_unwrittenArg fun _ hbuf => withRegister_unwrittenArg fun _ hqid => by simp [hbuf, hqid] at h

theorem addQid_written (hbuf : s.argBuf = .written b) (hqid : s.argQid = .written q) :
    exec .addQid s = emitBytes b (qidBytes q) s := by
  show execAddQid s = _
  rw [execAddQid, hbuf, hqid, withRegister_written, withRegister_written]

end

/-- Settles O17: once `ARG_BUF` is written, the command emits two fixed bytes. -/
theorem createFooterMeaning : Obligations.CreateFooterMeaning := by
  refine ⟨rfl, fun s => ⟨createFooter_unwritten, fun b hbuf => ?_⟩⟩
  rw [createFooter_written hbuf]
  exact emitBytes_pair b 0x55#8 0x55#8 s

/-- Settles O18: once both operands are written, the command emits `00` and the queue identifier. -/
theorem addQidMeaning : Obligations.AddQidMeaning := by
  refine ⟨rfl, fun s => ⟨addQid_unwritten, fun b q hbuf hqid => ?_⟩⟩
  rw [addQid_written hbuf hqid]
  exact emitBytes_pair b 0x00#8 q s

/-! ### The header's bytes as numbers -/

@[simp] theorem headerBytes_length (len : Half) (ver : Word) : (headerBytes len ver).length = 8 := rfl

/-- Byte 5 with and without a version (30_encoding.md R61). -/
theorem headerLenHigh_toNat (len : Half) (ver : Word) :
    (headerLenHigh len ver).toNat =
      if ver = 0#32 then len.toNat / 2 ^ 8 else len.toNat / 2 ^ 8 % 2 ^ 5 + 2 ^ 5 * (ver.toNat % 2 ^ 3) := by
  split
  case isTrue hver =>
    rw [headerLenHigh, if_pos hver, BitVec.extractLsb'_toNat, Nat.shiftRight_eq_div_pow]
    omega
  case isFalse hver => exact headerLenHigh_toNat_of_ne_zero len hver

/-- Bytes 6 and 7 hold version bits, a version of 0 needing no case of its own. -/
theorem headerVersionByte_toNat (ver : Word) (i : Nat) :
    (if ver = 0#32 then 0#8 else ver.extractLsb' i 8).toNat = ver.toNat / 2 ^ i % 2 ^ 8 := by
  split
  case isTrue hver => simp [hver]
  case isFalse => rw [BitVec.extractLsb'_toNat, Nat.shiftRight_eq_div_pow]

/-- Settles O16: the checks come in the order of the registers, and the eight bytes are those of `headerBytes`. -/
theorem createHeaderMeaning : Obligations.CreateHeaderMeaning := by
  refine ⟨rfl, fun s => ⟨createHeader_unwritten, fun b l v hbuf hlen hver => ?_⟩⟩
  rw [createHeader_written hbuf hlen hver]
  refine ⟨fun high => if_pos high, fun low ⟨k, hk, refused⟩ => ?_, fun low admitted => ?_⟩
  · rw [if_neg low.not_ge]
    exact emitBytes_stuck hk refused
  · rw [if_neg low.not_ge]
    obtain ⟨t, ht, frame, written, others⟩ := emitBytes_admitted (bytes := headerBytes l v) admitted
    have preamble : ∀ k < 4, Memory.read t.mem (b + k) = 0xAA#8
      | 0, _ => written 0 (by simp)
      | 1, _ => written 1 (by simp)
      | 2, _ => written 2 (by simp)
      | 3, _ => written 3 (by simp)
    have byte4 : Memory.read t.mem (b + 4) = l.extractLsb' 0 8 := written 4 (by simp)
    have byte5 : Memory.read t.mem (b + 5) = headerLenHigh l v := written 5 (by simp)
    have byte6 : Memory.read t.mem (b + 6) = if v = 0#32 then 0#8 else v.extractLsb' 3 8 := written 6 (by simp)
    have byte7 : Memory.read t.mem (b + 7) = if v = 0#32 then 0#8 else v.extractLsb' 11 8 := written 7 (by simp)
    refine ⟨t, ht, frame, preamble, ?_, ?_, ?_, ?_, others⟩
    · rw [byte4, BitVec.extractLsb'_toNat, Nat.shiftRight_zero]
    · rw [byte5, headerLenHigh_toNat]
    · rw [byte6, headerVersionByte_toNat]
    · rw [byte7, headerVersionByte_toNat]
      omega

/-! ### The handle plays no part -/

/-- The state with the handle replaced. -/
def replaceHandle (d : DecoderState) (l o : Reg Half) (s : State) : State :=
  { s with decoder := d, len := l, offset := o }

section
variable (d : DecoderState) (l o : Reg Half) (s : State)

theorem emitBytes_replaceHandle (buf : Nat) (bytes : List Byte) :
    emitBytes buf bytes (replaceHandle d l o s) = mapNext (replaceHandle d l o) (emitBytes buf bytes s) :=
  whenAdmitted_comm rfl rfl

theorem execEncoder_replaceHandle {i : Instr} (hi : i ≠ .initDecoder) (hd : i ≠ .decode) :
    exec i (replaceHandle d l o s) = mapNext (replaceHandle d l o) (exec i s) := by
  have emit := emitBytes_replaceHandle d l o s
  cases i with
  | createHeader =>
    exact withRegister_comm rfl rfl fun buf => withRegister_comm rfl rfl fun len =>
      withRegister_comm rfl rfl fun ver => ite_comm Iff.rfl rfl (emit buf _)
  | createFooter => exact withRegister_comm rfl rfl fun buf => emit buf _
  | addQid => exact withRegister_comm rfl rfl fun buf => withRegister_comm rfl rfl fun qid => emit buf _
  | initDecoder => exact absurd rfl hi
  | decode => exact absurd rfl hd

end

theorem execEncoder_sameDecoder {i : Instr} {s t : State} (hi : i ≠ .initDecoder) (hd : i ≠ .decode)
    (h : exec i s = .next t) : SameDecoder s t := by
  obtain same | ⟨hinit, _⟩ | ⟨hdec, _⟩ := exec_decoder_cases h
  · exact same
  · exact absurd hinit hi
  · exact absurd hdec hd

/-- Settles O19: an encoder command reads and writes operand registers, memory and `RES_LEN` only. -/
theorem encoderIndependentOfHandle : Obligations.EncoderIndependentOfHandle := by
  intro i s d l o encoder
  have hi : i ≠ .initDecoder := by rintro rfl; simp at encoder
  have hd : i ≠ .decode := by rintro rfl; simp at encoder
  refine ⟨execEncoder_replaceHandle d l o s hi hd, fun t ht => ?_⟩
  have same := execEncoder_sameDecoder hi hd ht
  exact ⟨same.decoder, same.len, same.offset⟩

/-! ### A header and a footer in either order -/

/-- Writes to ranges that do not meet commute on memory in canonical form. -/
theorem Memory.writeBytes_comm {m : Memory} {a b : Nat} {vs ws : List Byte} (wf : Memory.wf m = true)
    (apart : a + vs.length ≤ b) :
    Memory.writeBytes (Memory.writeBytes m a vs) b ws = Memory.writeBytes (Memory.writeBytes m b ws) a vs := by
  refine Memory.ext (Memory.wf_writeBytes _ _ (Memory.wf_writeBytes _ _ wf))
    (Memory.wf_writeBytes _ _ (Memory.wf_writeBytes _ _ wf)) fun x => ?_
  simp only [Memory.read_writeBytes]
  by_cases first : a ≤ x ∧ x < a + vs.length
  · have second : ¬(b ≤ x ∧ x < b + ws.length) := by omega
    simp only [dif_pos first, dif_neg second]
  · simp only [dif_neg first]

/-- The bytes `CREATE_HEADER` writes for a written length: none if it takes a fault for its version. -/
def headerWritten (len : Half) : Reg Word → List Byte
  | .unwritten => []
  | .written ver => if 2 ^ 19 ≤ ver.toNat then [] else headerBytes len ver

theorem headerWritten_length_le (len : Half) (ver : Reg Word) : (headerWritten len ver).length ≤ 8 := by
  cases ver with
  | unwritten => simp [headerWritten]
  | written v =>
    rw [headerWritten]
    split
    · simp
    · exact le_rfl

section
variable {s t : State} {b : Nat}

theorem createHeader_mem {l : Half} (hbuf : s.argBuf = .written b) (hlen : s.argLen = .written l)
    (h : exec .createHeader s = .next t) : t.mem = Memory.writeBytes s.mem b (headerWritten l s.argVer) := by
  cases hver : s.argVer with
  | unwritten =>
    rw [createHeader_unwritten (.inr (.inr hver))] at h
    cases h
    rfl
  | written v =>
    rw [createHeader_written hbuf hlen hver] at h
    rw [headerWritten]
    split at h
    case isTrue high => cases h; rw [if_pos high]; rfl
    case isFalse low => rw [if_neg low]; exact emitBytes_mem h

theorem createFooter_mem (hbuf : s.argBuf = .written b) (h : exec .createFooter s = .next t) :
    t.mem = Memory.writeBytes s.mem b footerBytes :=
  emitBytes_mem ((createFooter_written hbuf).symm.trans h)

end

/-- Settles O20: the header ends where the payload begins, so its bytes and the footer's do not meet. A header that
takes a fault takes it in both orders, so the statement's premise on `FAULT` is not needed. -/
theorem headerAndFooterCommute : Obligations.HeaderAndFooterCommute := by
  intro s t1 t2 u1 u2 b f l wf hlen hf ht1 _ ht2 hu1 hu2
  have inputs := exec_sameInputs hu1
  have hlen' : u1.argLen = .written l := inputs.argLen.trans hlen
  have header1 := createHeader_mem (s := { s with argBuf := .written b }) rfl hlen ht1
  have footer2 := createFooter_mem (s := { t1 with argBuf := .written f }) rfl ht2
  have footer1 := createFooter_mem (s := { s with argBuf := .written f }) rfl hu1
  have header2 := createHeader_mem (s := { u1 with argBuf := .written b }) rfl hlen' hu2
  have apart : b + (headerWritten l s.argVer).length ≤ f := by
    have := headerWritten_length_le l s.argVer
    omega
  rw [footer2, header1, header2, footer1, inputs.argVer]
  exact Memory.writeBytes_comm wf apart

end Sys2Proof.Machine
end

section
/-! PROOFS. The decoder (41_decoder.md): each row of the state machine as the answer of `DECODE`, `UNINIT`, the
pre-checks, the gather step, and what a completed `DECODE` reports, consumes and writes. -/

namespace Sys2Proof.Machine

/-! ### `UNINIT` and the pre-checks -/

/-- Settles O21: both halves are the definitions. -/
theorem initDecoderMeaning : Obligations.InitDecoderMeaning := ⟨rfl, fun _ => rfl⟩

theorem ByteEffect.initialized {b : Byte} {s t : State} (h : ByteEffect b s t) : t.decoder ≠ .uninit := by
  cases h
  case zeroPrefix d at_ _ => rintro rfl; simp at at_
  case skipped d at_ => rintro rfl; simp at at_
  case preamble d at_ _ => rintro rfl; simp at at_
  all_goals simp

theorem DecodeEffect.initialized {src inlen : Nat} {s t : State} (h : DecodeEffect src inlen s t) :
    t.decoder ≠ .uninit := by
  cases h with
  | byte _ _ effect => exact effect.initialized
  | gather _ _ _ _ _ _ effect =>
    rw [effect.after, setDecodeResult_decoder]
    split <;> simp

/-- No command but `INIT_DECODER` enters or leaves `UNINIT`. -/
theorem exec_uninit {i : Instr} {s t : State} (h : exec i s = .next t) :
    (i = .initDecoder ∧ t.decoder = .pfx0) ∨ (t.decoder = .uninit ↔ s.decoder = .uninit) := by
  obtain ⟨_, _, rfl⟩ | ⟨_, _, _, _, _, he⟩ | ⟨hi, rfl⟩ | ⟨_, _, _, hu, _, _, _, effect⟩ := exec_next h
  · exact .inr Iff.rfl
  · exact .inr (by rw [(emitBytes_sameDecoder he).decoder])
  · exact .inl ⟨hi, rfl⟩
  · exact .inr (iff_of_false effect.initialized hu)

/-- Settles O22: of the host's moves, only power-on and a command write `STATE`, and of the commands only
`INIT_DECODER` moves it out of `UNINIT`. -/
theorem uninitLeftOnlyByInitDecoder : Obligations.UninitLeftOnlyByInitDecoder := by
  intro s t h
  have unmoved (same : t.decoder = s.decoder) :
      (s.decoder = .uninit → t.decoder ≠ .uninit → s.Live ∧ ∃ rest, s.host = .cmd 4#32 :: rest) ∧
      (s.decoder ≠ .uninit → t.decoder = .uninit → ∃ rest, s.host = .powerOn :: rest) :=
    ⟨fun hs ht => absurd (same.trans hs) ht, fun hs ht => absurd (same.symm.trans ht) hs⟩
  obtain ⟨_, rfl⟩ | ⟨_, _, _, _, rfl⟩ | ⟨_, _, _, _, _, _, rfl⟩ | ⟨rest, w, i, hhost, live, legal, he⟩ |
    ⟨_, o, _, rfl⟩ | ⟨_, _, _, _, rfl⟩ | ⟨rest, hpower, rfl⟩ := step_cases h
  · exact unmoved rfl
  · exact unmoved rfl
  · exact unmoved rfl
  · obtain ⟨rfl, ht⟩ | same := exec_uninit he
    · obtain rfl : w = 4#32 := (decodeEncodeAgree.1 w .initDecoder).mp legal
      exact ⟨fun _ _ => ⟨live, rest, hhost⟩, fun _ ht' => by simp [ht] at ht'⟩
    · exact ⟨fun hs ht => absurd (same.mpr hs) ht, fun hs ht => absurd (same.mp ht) hs⟩
  · exact unmoved (writeOperand_decoder o _)
  · exact unmoved rfl
  · exact ⟨fun _ ht => absurd rfl ht, fun _ _ => ⟨rest, hpower⟩⟩

theorem exists_written {α : Type} {r : Reg α} (h : r ≠ .unwritten) : ∃ v, r = .written v := by
  cases r with
  | unwritten => exact absurd rfl h
  | written v => exact ⟨v, rfl⟩

/-- Settles O23: the checks stand in `execDecode` in the rule's order. -/
theorem decodePrechecksInOrder : Obligations.DecodePrechecksInOrder := by
  intro s
  refine ⟨fun hu => if_pos hu, fun hu unwritten => ?_, fun hu hin hinlen => ?_⟩
  · refine (if_neg hu).trans (withRegister_unwrittenArg fun src hsrc => ?_)
    exact withRegister_unwrittenArg fun inlen hinlen => by simp [hsrc, hinlen] at unwritten
  · obtain ⟨src, hsrc⟩ := exists_written hin
    have empty : execDecode s = .next (recordFault .emptyInput s) := by
      rw [execDecode, if_neg hu, hsrc, hinlen, withRegister_written, withRegister_written, if_pos rfl, raiseFault]
    exact empty

/-! ### The rows of the single-byte arms

`ByteEffect` lists the rows; each is what the arm answers once the byte is admitted. -/

section
variable {s t : State} {src inlen : Nat} {d : DecoderState}

theorem decodeArm_eq_armPrefix (at_ : (s.decoder, d) ∈ [(DecoderState.pfx0, .pfx1), (.pfx1, DecoderState.pfx2)]) :
    decodeArm src inlen s = armPrefix d src s := by
  simp only [List.mem_cons, Prod.mk.injEq, List.not_mem_nil, or_false] at at_
  obtain ⟨hd, rfl⟩ | ⟨hd, rfl⟩ := at_ <;> simp only [decodeArm, hd]

theorem decodeArm_eq_armSkip
    (at_ : (s.decoder, d) ∈ [(DecoderState.pfx2, .pfx3), (.pfx3, .aa1), (.rsv0, DecoderState.rsv1)]) :
    decodeArm src inlen s = armSkip d src s := by
  simp only [List.mem_cons, Prod.mk.injEq, List.not_mem_nil, or_false] at at_
  obtain ⟨hd, rfl⟩ | ⟨hd, rfl⟩ | ⟨hd, rfl⟩ := at_ <;> simp only [decodeArm, hd]

theorem decodeArm_eq_armPreamble
    (at_ : (s.decoder, d) ∈ [(DecoderState.aa1, .aa2), (.aa2, .aa3), (.aa3, .aa4), (.aa4, DecoderState.len0)]) :
    decodeArm src inlen s = armPreamble d src s := by
  simp only [List.mem_cons, Prod.mk.injEq, List.not_mem_nil, or_false] at at_
  obtain ⟨hd, rfl⟩ | ⟨hd, rfl⟩ | ⟨hd, rfl⟩ | ⟨hd, rfl⟩ := at_ <;> simp only [decodeArm, hd]

theorem exists_decodeArm_eq_armPrefix (at_ : s.decoder ∈ [DecoderState.pfx0, .pfx1]) :
    ∃ d, decodeArm src inlen s = armPrefix d src s := by
  simp only [List.mem_cons, List.not_mem_nil, or_false] at at_
  obtain hd | hd := at_
  · exact ⟨.pfx1, decodeArm_eq_armPrefix (by simp [hd])⟩
  · exact ⟨.pfx2, decodeArm_eq_armPrefix (by simp [hd])⟩

theorem exists_decodeArm_eq_armPreamble (at_ : s.decoder ∈ [DecoderState.aa1, .aa2, .aa3, .aa4]) :
    ∃ d, decodeArm src inlen s = armPreamble d src s := by
  simp only [List.mem_cons, List.not_mem_nil, or_false] at at_
  obtain hd | hd | hd | hd := at_
  · exact ⟨.aa2, decodeArm_eq_armPreamble (by simp [hd])⟩
  · exact ⟨.aa3, decodeArm_eq_armPreamble (by simp [hd])⟩
  · exact ⟨.aa4, decodeArm_eq_armPreamble (by simp [hd])⟩
  · exact ⟨.len0, decodeArm_eq_armPreamble (by simp [hd])⟩

/-- Each row of `ByteEffect` is what the arm of its state answers. -/
theorem ByteEffect.decodeArm_eq (h : ByteEffect (Memory.read s.mem src) s t)
    (hr : memAdmit s.platform src .read = true) : decodeArm src inlen s = .next t := by
  have byteRead (k : Byte → Answer) := withChunkByte_admitted k hr
  cases h
  case zeroPrefix d at_ byte => rw [decodeArm_eq_armPrefix at_, armPrefix, byteRead]; exact if_pos byte
  case nonzeroPrefix at_ byte =>
    obtain ⟨d, arm⟩ := exists_decodeArm_eq_armPrefix at_
    rw [arm, armPrefix, byteRead]
    exact if_neg byte
  case skipped d at_ => rw [decodeArm_eq_armSkip at_, armSkip, byteRead]; rfl
  case preamble d at_ byte => rw [decodeArm_eq_armPreamble at_, armPreamble, byteRead]; exact if_pos byte
  case noHeader at_ byte =>
    obtain ⟨d, arm⟩ := exists_decodeArm_eq_armPreamble at_
    rw [arm, armPreamble, byteRead]
    exact if_neg byte
  case lengthLow at_ => simp only [decodeArm, at_, armLen0, byteRead]; rfl
  case lengthHigh len at_ hlen => simp only [decodeArm, at_, armLen1, byteRead, hlen, withRegister_written]; rfl
  case invalidLength cap len at_ hcap hlen bad =>
    simp only [decodeArm, at_, armRsv1, byteRead, hcap, hlen, withRegister_written, if_pos bad]
    rfl
  case validLength cap len at_ hcap hlen high low =>
    have good : ¬(cap.toNat < len.toNat ∨ len.toNat < s.platform.ethMinLen) := by omega
    simp only [decodeArm, at_, armRsv1, byteRead, hcap, hlen, withRegister_written, if_neg good]
    rfl
  case footer at_ byte => simp only [decodeArm, at_, armFt0, byteRead]; exact if_pos byte
  case complete f at_ hoff byte =>
    simp only [decodeArm, at_, armFt1, byteRead, hoff, withRegister_written]
    exact if_pos byte
  case noTail at_ byte =>
    simp only [List.mem_cons, List.not_mem_nil, or_false] at at_
    obtain at_ | at_ := at_
    · simp only [decodeArm, at_, armFt0, byteRead]; exact if_neg byte
    · simp only [decodeArm, at_, armFt1, byteRead]; exact if_neg byte

/-- A `DECODE` that passes its pre-checks on an admitted byte answers its state's row. -/
theorem ByteEffect.execDecode_eq (h : ByteEffect (Memory.read s.mem src) s t) (hu : s.decoder ≠ .uninit)
    (hsrc : s.argIn = .written src) (hinlen : s.argInlen = .written inlen) (hz : inlen ≠ 0)
    (hr : memAdmit s.platform src .read = true) : exec .decode s = .next t :=
  (execDecode_ready hu hsrc hinlen hz).trans (h.decodeArm_eq hr)

end

/-- Settles O25: a zero byte takes the row of the state, any other the row back to `PFX0`. -/
theorem prefixArmsRestartOnNonzero : Obligations.PrefixArmsRestartOnNonzero := by
  intro s src inlen hd hsrc hinlen hz hr
  by_cases byte : Memory.read s.mem src = 0x00#8
  · rw [if_neg (not_not.mpr byte)]
    obtain hd | hd := hd
    · rw [if_pos hd]
      exact (ByteEffect.zeroPrefix .pfx1 (by simp [hd]) byte).execDecode_eq (by simp [hd]) hsrc hinlen hz hr
    · rw [if_neg (by simp [hd])]
      exact (ByteEffect.zeroPrefix .pfx2 (by simp [hd]) byte).execDecode_eq (by simp [hd]) hsrc hinlen hz hr
  · rw [if_pos byte]
    have hu : s.decoder ≠ .uninit := fun hu => by simp [hu] at hd
    exact (ByteEffect.nonzeroPrefix (by simpa using hd) byte).execDecode_eq hu hsrc hinlen hz hr

/-- Settles O26: the skipped byte has one row for each of its states. -/
theorem skippedByteArmsAdvance : Obligations.SkippedByteArmsAdvance := by
  intro s src inlen d at_ hsrc hinlen hz hr
  have hu : s.decoder ≠ .uninit := fun hu => by simp [hu] at at_
  exact (ByteEffect.skipped d at_).execDecode_eq hu hsrc hinlen hz hr

/-- Settles O27: `0xAA` takes the row of the state, any other byte the one row that reports `NO_HEADER`. -/
theorem preambleArmsMatchAA : Obligations.PreambleArmsMatchAA := by
  intro s src inlen d at_ hsrc hinlen hz hr
  have hu : s.decoder ≠ .uninit := fun hu => by simp [hu] at at_
  by_cases byte : Memory.read s.mem src = 0xAA#8
  · rw [if_neg (not_not.mpr byte)]
    exact (ByteEffect.preamble d at_ byte).execDecode_eq hu hsrc hinlen hz hr
  · rw [if_pos byte]
    exact (ByteEffect.noHeader (by simp at at_ ⊢; tauto) byte).execDecode_eq hu hsrc hinlen hz hr

/-- Settles O28: zero-extending the byte is taking its number. -/
theorem lengthLowByteOverwritesLen : Obligations.LengthLowByteOverwritesLen := by
  intro s src inlen hd hsrc hinlen hz hr
  rw [BitVec.ofNat_toNat]
  exact (ByteEffect.lengthLow hd).execDecode_eq (by simp [hd]) hsrc hinlen hz hr

/-- The high byte in its place, as a number. -/
theorem highByte_toNat (b : Byte) : (b.setWidth 16 <<< 8).toNat = b.toNat <<< 8 := by
  simp only [BitVec.toNat_shiftLeft, BitVec.toNat_setWidth, Nat.shiftLeft_eq]
  omega

/-- The two length bytes join into the little-endian number (41_decoder.md R108). -/
theorem mergeLength_toNat {l : Half} (low : l.toNat < 2 ^ 8) (b : Byte) :
    (l ||| b.setWidth 16 <<< 8).toNat = l.toNat + 2 ^ 8 * b.toNat := by
  rw [BitVec.toNat_or, highByte_toNat, Nat.or_comm, ← Nat.shiftLeft_add_eq_or_of_lt low, Nat.shiftLeft_eq]
  omega

/-- Settles O29: the merge is an OR of numbers, and a sum when the low byte leaves the high bits clear. -/
theorem lengthHighByteMergesIntoLen : Obligations.LengthHighByteMergesIntoLen := by
  intro s src inlen l hd hlen hsrc hinlen hz hr
  refine ⟨_, (ByteEffect.lengthHigh l hd hlen).execDecode_eq (by simp [hd]) hsrc hinlen hz hr, ?_, fun low => ?_⟩
  · rw [BitVec.toNat_or, highByte_toNat]
  · exact mergeLength_toNat low _

/-- Settles O30: `ARG_LEN` is read before the byte, and the two rows of the length check are complementary. -/
theorem secondReservedByteChecksLength : Obligations.SecondReservedByteChecksLength := by
  intro s src inlen hd hsrc hinlen hz
  have hu : s.decoder ≠ .uninit := by simp [hd]
  refine ⟨fun hcap => ?_, fun cap l hcap hlen => ⟨fun hr => ?_, fun hr bad => ?_, fun hr low high => ?_⟩⟩
  · have faulted : decodeArm src inlen s = .next (recordFault .unwrittenArg s) := by
      simp only [decodeArm, hd, armRsv1, hcap, withRegister_unwritten]
    exact (execDecode_ready hu hsrc hinlen hz).trans faulted
  · rw [execDecode_ready hu hsrc hinlen hz]
    exact decodeArm_stuck hu (by simp [hd]) hr (by simp [hcap])
  · exact (ByteEffect.invalidLength cap l hd hcap hlen bad).execDecode_eq hu hsrc hinlen hz hr
  · exact (ByteEffect.validLength cap l hd hcap hlen high low).execDecode_eq hu hsrc hinlen hz hr

/-- Settles O32: two rows, by whether the byte is `0x55`. -/
theorem firstFooterByteMatches55 : Obligations.FirstFooterByteMatches55 := by
  intro s src inlen hd hsrc hinlen hz hr
  have hu : s.decoder ≠ .uninit := by simp [hd]
  by_cases byte : Memory.read s.mem src = 0x55#8
  · rw [if_neg (not_not.mpr byte)]
    exact (ByteEffect.footer hd byte).execDecode_eq hu hsrc hinlen hz hr
  · rw [if_pos byte]
    exact (ByteEffect.noTail (by simp [hd]) byte).execDecode_eq hu hsrc hinlen hz hr

/-- Settles O33: two rows, by whether the byte is `0x55`. -/
theorem secondFooterByteCompletesFrame : Obligations.SecondFooterByteCompletesFrame := by
  intro s src inlen f hd hoff hsrc hinlen hz hr
  have hu : s.decoder ≠ .uninit := by simp [hd]
  by_cases byte : Memory.read s.mem src = 0x55#8
  · rw [if_neg (not_not.mpr byte)]
    exact (ByteEffect.complete f hd hoff byte).execDecode_eq hu hsrc hinlen hz hr
  · rw [if_pos byte]
    exact (ByteEffect.noTail (by simp [hd]) byte).execDecode_eq hu hsrc hinlen hz hr

/-! ### The gather step -/

section
variable {s t : State} {src inlen out n : Nat} {cap len off : Half}

theorem armGath_unwritten (h : s.argBuf = .unwritten ∨ s.argLen = .unwritten) :
    armGath src inlen s = .next (recordFault .unwrittenArg s) :=
  withRegister_unwrittenArg fun _ hout => withRegister_unwrittenArg fun _ hcap => by simp [hout, hcap] at h

/-- `GATH` once its registers are written: the two checks, then admission of both ranges (41_decoder.md R111). -/
theorem armGath_written (hout : s.argBuf = .written out) (hcap : s.argLen = .written cap) (hlen : s.len = .written len)
    (hoff : s.offset = .written off) (hn : n = min inlen (len.toNat - off.toNat)) :
    armGath src inlen s =
      if cap.toNat < off.toNat + n then .next (recordFault .outOfBounds s)
      else if rangesMeet src (out + off.toNat) n then .next (recordFault .overlap s)
      else whenAdmitted
        (memAdmitAll s.platform .read src n && memAdmitAll s.platform .write (out + off.toNat) n)
        (.next (setDecodeResult .gather 0#16 n
          { s with
            mem := Memory.copy s.mem src (out + off.toNat) n
            offset := .written (BitVec.ofNat 16 (off.toNat + n))
            decoder := if off.toNat + n = len.toNat then .ft0 else .gath })) := by
  subst hn
  simp only [armGath, hout, hcap, hlen, hoff, withRegister_written]
  rfl

/-- A gather step whose checks pass is what the arm of `GATH` answers. -/
theorem GatherEffect.execDecode_eq (h : GatherEffect src inlen s t out cap len off n) (hd : s.decoder = .gath)
    (hsrc : s.argIn = .written src) (hinlen : s.argInlen = .written inlen) (hz : inlen ≠ 0) :
    exec .decode s = .next t := by
  have arm : decodeArm src inlen s = armGath src inlen s := by simp only [decodeArm, hd]
  rw [execDecode_ready (by simp [hd]) hsrc hinlen hz, arm,
    armGath_written h.hout h.hcap h.hlen h.hoff h.hn, if_neg h.fits.not_gt, if_neg (by simp [h.apart]),
    memAdmitAll_iff.mpr h.readable, memAdmitAll_iff.mpr h.writable, h.after]
  rfl

/-- The bytes a gather step moves, and its frame. -/
theorem GatherEffect.read_mem (h : GatherEffect src inlen s t out cap len off n) (x : Nat) :
    Memory.read t.mem x =
      if out + off.toNat ≤ x ∧ x < out + off.toNat + n then Memory.read s.mem (src + (x - (out + off.toNat)))
      else Memory.read s.mem x := by
  rw [h.after]
  exact Memory.read_copy s.mem src _ n h.apart x

end

/-- Settles O31: the arm's checks come in the rule's order, and what passes them is a `GatherEffect`. -/
theorem gatherCopiesPayload : Obligations.GatherCopiesPayload := by
  intro s src inlen hd hsrc hinlen hz
  have ready : exec .decode s = armGath src inlen s := by
    rw [execDecode_ready (by simp [hd]) hsrc hinlen hz]
    simp only [decodeArm, hd]
  refine ⟨fun h => ready.trans (armGath_unwritten h), fun out cap l o n hout hcap hlen hoff hn => ?_⟩
  have arm := ready.trans (armGath_written hout hcap hlen hoff hn)
  refine ⟨fun exceeds => ?_, fun fits meet => ?_, fun fits apart refused => ?_, fun fits apart admitted => ?_⟩
  · rw [arm, if_pos exceeds]
    rfl
  · rw [arm, if_neg fits.not_gt, if_pos (rangesMeet_iff.mpr meet)]
    rfl
  · have stuck : (memAdmitAll s.platform .read src n && memAdmitAll s.platform .write (out + o.toNat) n) = false := by
      rw [← Bool.not_eq_true, Bool.and_eq_true, memAdmitAll_iff, memAdmitAll_iff]
      rintro ⟨readable, writable⟩
      obtain ⟨i, hi, h | h⟩ := refused
      · simp [readable i hi] at h
      · simp [writable i hi] at h
    rw [arm, if_neg fits.not_gt, if_neg (by simp [rangesMeet_eq_false_iff.mpr apart]), stuck, whenAdmitted_false]
  · have effect : GatherEffect src inlen s _ out cap l o n :=
      ⟨hout, hcap, hlen, hoff, hn, fits, rangesMeet_eq_false_iff.mpr apart, fun i hi => (admitted i hi).1,
        fun i hi => (admitted i hi).2, rfl⟩
    refine ⟨_, effect.execDecode_eq hd hsrc hinlen hz, rfl, fun i hi => ?_, fun x hx => ?_⟩
    · rw [effect.read_mem, if_pos (by omega), Nat.add_sub_cancel_left]
    · rw [effect.read_mem, if_neg (by omega)]

/-! ### What a completed `DECODE` reports, consumes and writes -/

/-- A `DECODE` that leaves the codec live passed its pre-checks and completed. -/
theorem execDecode_live {s t : State} (h : exec .decode s = .next t) (live : t.Live) :
    ∃ src inlen, s.decoder ≠ .uninit ∧ s.argIn = .written src ∧ s.argInlen = .written inlen ∧ inlen ≠ 0 ∧
      DecodeEffect src inlen s t := by
  obtain ⟨c, cause, rfl⟩ | effect := execDecode_next h
  · exact absurd live cause
  · exact effect

/-- A row that reports anything but `GATHER` resynchronizes, with `RES_FRAME = 0` unless a frame is complete
(41_decoder.md R114). -/
theorem ByteEffect.resynchronizes {b : Byte} {s t : State} {k : ResultKind} (h : ByteEffect b s t)
    (hk : t.resKind = .written k) (error : k ≠ .gather) :
    ∃ f, t = setDecodeResult k f 1 (resync s) ∧ (k ≠ .frame → f = 0#16) := by
  cases h
  case noHeader => cases hk; exact ⟨_, rfl, fun _ => rfl⟩
  case invalidLength => cases hk; exact ⟨_, rfl, fun _ => rfl⟩
  case complete => cases hk; exact ⟨_, rfl, absurd rfl⟩
  case noTail => cases hk; exact ⟨_, rfl, fun _ => rfl⟩
  all_goals cases hk; exact absurd rfl error

/-- Settles O34: `GATH` reports `GATHER`, so the result is that of a single-byte row. -/
theorem nonGatherResultResynchronizes : Obligations.NonGatherResultResynchronizes := by
  intro s t k h live hk error
  obtain ⟨src, inlen, _, _, _, _, ⟨_, _, effect⟩ | ⟨_, _, _, _, _, _, effect⟩⟩ := execDecode_live h live
  · obtain ⟨f, rfl, hf⟩ := effect.resynchronizes hk error
    exact ⟨rfl, fun hframe => congrArg _ (hf hframe)⟩
  · rw [effect.after] at hk
    cases hk
    exact absurd rfl error

/-- Settles O36: outside `GATH` one byte is consumed, and in `GATH` the countdown is at least 1. -/
theorem decodeConsumptionLaw : Obligations.DecodeConsumptionLaw := by
  intro s t inlen inv hinlen h live
  obtain ⟨src, inlen', _, _, hinlen', nonempty, completed⟩ := execDecode_live h live
  obtain rfl : inlen = inlen' := Reg.written.inj (hinlen.symm.trans hinlen')
  cases completed with
  | byte at_ _ effect => exact ⟨1, effect.resCons, le_rfl, Nat.one_le_iff_ne_zero.mpr nonempty, by rw [if_neg at_]⟩
  | gather at_ out cap len off n effect =>
    obtain ⟨moved, _, _⟩ := effect.count_bounds at_ nonempty inv
    have hn := effect.hn
    refine ⟨n, by rw [effect.after]; rfl, moved, by omega, ?_⟩
    rw [if_pos at_]
    exact ⟨len, off, effect.hlen, effect.hoff, hn⟩

/-- Settles O37: a fault and a single-byte row write no byte, and the copy stays below `LEN`. -/
theorem decodeWritesOnlyPayloadBytes : Obligations.DecodeWritesOnlyPayloadBytes := by
  intro s t x h changed
  obtain ⟨_, _, rfl⟩ | ⟨src, inlen, _, _, _, _, ⟨_, _, effect⟩ | ⟨at_, out, cap, len, off, n, effect⟩⟩ :=
    execDecode_next h
  · exact absurd rfl changed
  · exact absurd (by rw [effect.mem]) changed
  · rw [effect.read_mem] at changed
    have inside : out + off.toNat ≤ x ∧ x < out + off.toNat + n := by
      by_contra outside
      exact changed (if_neg outside)
    have hn := effect.hn
    exact ⟨at_, out, len, off, effect.hout, effect.hlen, effect.hoff, inside.1, by omega⟩

end Sys2Proof.Machine
end

section
/-! PROOFS. A host feeding a stream to `DECODE` (41_decoder.md R116 to R120): what one call can do, and feeding byte
by byte as the normal form of every chunking. -/

namespace Sys2Proof.Machine

/-! ### One call -/

section
variable (out : Nat) (cap : Half) (src n : Nat) (u : State)

@[simp] theorem presentChunk_decoder : (presentChunk out cap src n u).decoder = u.decoder := rfl
@[simp] theorem presentChunk_len : (presentChunk out cap src n u).len = u.len := rfl
@[simp] theorem presentChunk_offset : (presentChunk out cap src n u).offset = u.offset := rfl
@[simp] theorem presentChunk_mem : (presentChunk out cap src n u).mem = u.mem := rfl
@[simp] theorem presentChunk_platform : (presentChunk out cap src n u).platform = u.platform := rfl
@[simp] theorem presentChunk_fault : (presentChunk out cap src n u).fault = u.fault := rfl
@[simp] theorem presentChunk_argLen : (presentChunk out cap src n u).argLen = .written cap := rfl
@[simp] theorem presentChunk_argBuf :
    (presentChunk out cap src n u).argBuf = .written (u.platform.addrBits out) := rfl
@[simp] theorem presentChunk_argInlen :
    (presentChunk out cap src n u).argInlen = .written (u.platform.addrBits n) := rfl

theorem presentChunk_argIn (fits : src < 2 ^ u.platform.addrW) :
    (presentChunk out cap src n u).argIn = .written src :=
  congrArg _ (addrBits_of_lt fits)

theorem presentChunk_handleInv {u : State} (inv : HandleInv u) : HandleInv (presentChunk out cap src n u) := inv

end

/-- Where some chunk length is not 0, a length of 1 fits the register. -/
theorem addrBits_one {p : Config.Platform} {n : Nat} (h : p.addrBits n ≠ 0) : p.addrBits 1 = 1 :=
  addrBits_of_lt ((Nat.one_le_iff_ne_zero.mpr h).trans_lt (addrBits_lt p n))

theorem addrBits_le (p : Config.Platform) (n : Nat) : p.addrBits n ≤ n := Nat.mod_le _ _

/-- What a live call of a feed did, with the chunk it presented. -/
structure CallEffect (out : Nat) (cap : Half) (cursor n : Nat) (u t : State) : Prop where
  initialized : u.decoder ≠ .uninit
  nonempty : u.platform.addrBits n ≠ 0
  effect : DecodeEffect cursor (u.platform.addrBits n) (presentChunk out cap cursor n u) t

section
variable {out : Nat} {cap : Half} {cursor n : Nat} {u t : State}

theorem callEffect (fits : cursor < 2 ^ u.platform.addrW)
    (ran : exec .decode (presentChunk out cap cursor n u) = .next t) (live : t.Live) :
    CallEffect out cap cursor n u t := by
  obtain ⟨src, inlen, hu, hsrc, hinlen, nonempty, effect⟩ := execDecode_live ran live
  obtain rfl : cursor = src := Reg.written.inj ((presentChunk_argIn out cap cursor n u fits).symm.trans hsrc)
  obtain rfl : u.platform.addrBits n = inlen := Reg.written.inj hinlen
  exact ⟨hu, nonempty, effect⟩

theorem call_platform (ran : exec .decode (presentChunk out cap cursor n u) = .next t) : t.platform = u.platform :=
  (exec_sameInputs ran).platform

theorem CallEffect.byte (h : CallEffect out cap cursor n u t) (hg : u.decoder ≠ .gath) :
    memAdmit u.platform cursor .read = true ∧
      ByteEffect (Memory.read u.mem cursor) (presentChunk out cap cursor n u) t := by
  obtain ⟨_, readable, effect⟩ | ⟨at_, _⟩ := h.effect
  · exact ⟨readable, effect⟩
  · exact absurd at_ hg

/-- Outside `GATH`, a live call did what the row of its state says. -/
theorem call_eq_row {t' : State} (fits : cursor < 2 ^ u.platform.addrW)
    (ran : exec .decode (presentChunk out cap cursor n u) = .next t) (live : t.Live) (hg : u.decoder ≠ .gath)
    (row : ByteEffect (Memory.read u.mem cursor) (presentChunk out cap cursor n u) t') : t = t' := by
  have call := callEffect fits ran live
  have same := ByteEffect.execDecode_eq (s := presentChunk out cap cursor n u) row call.initialized
    (presentChunk_argIn out cap cursor n u fits) rfl call.nonempty (call.byte hg).1
  exact Host.Outcome.next.inj (ran.symm.trans same)

theorem CallEffect.gather (h : CallEffect out cap cursor n u t) (at_ : u.decoder = .gath) :
    ∃ out' cap' len off m,
      GatherEffect cursor (u.platform.addrBits n) (presentChunk out cap cursor n u) t out' cap' len off m := by
  obtain ⟨hg, _, _⟩ | ⟨_, out', cap', len, off, m, effect⟩ := h.effect
  · exact absurd at_ hg
  · exact ⟨out', cap', len, off, m, effect⟩

/-- A live call leaves the three results written, and moves the cursor on by at least 1 and at most the chunk. -/
theorem CallEffect.results (h : CallEffect out cap cursor n u t) (inv : HandleInv u) :
    ∃ kind frame cons, t.resKind = .written kind ∧ t.resFrame = .written frame ∧ t.resCons = .written cons ∧
      1 ≤ cons ∧ cons ≤ n := by
  obtain ⟨c, hc, hle⟩ := h.effect.resCons_le h.nonempty
  obtain ⟨_, _, hnone⟩ | ⟨kind, frame, cons, hkind, hframe, hcons, moved, _⟩ :=
    h.effect.establishes_resultInv h.nonempty (presentChunk_handleInv out cap cursor n inv)
  · simp [hnone] at hc
  · obtain rfl : c = cons := Reg.written.inj (hc.symm.trans hcons)
    exact ⟨kind, frame, c, hkind, hframe, hc, moved, hle.trans (addrBits_le _ n)⟩

end

/-! ### What a feed keeps -/

section
variable {out start stop cursor : Nat} {cap : Half} {s u : State} {r : List Report}

theorem Feeds.platform (h : Feeds out cap start stop s cursor r u) : u.platform = s.platform := by
  induction h with
  | start => rfl
  | call _ _ _ ran _ _ _ _ ih => exact (call_platform ran).trans ih

theorem Feeds.handleInv (h : Feeds out cap start stop s cursor r u) (params : s.platform.WellFormed = true)
    (inv : HandleInv s) : HandleInv u := by
  induction h with
  | start => exact inv
  | call before _ _ ran _ _ _ _ ih =>
    exact exec_keeps_handleInv ran (before.platform ▸ params) (presentChunk_handleInv _ _ _ _ ih)

theorem Feeds.start_le (h : Feeds out cap start stop s cursor r u) : start ≤ cursor := by
  induction h with
  | start => exact le_rfl
  | call _ _ _ _ _ _ _ _ ih => exact ih.trans (Nat.le_add_right _ _)

theorem Feeds.live (h : Feeds out cap start stop s cursor r u) (live : s.Live) : u.Live := by
  cases h with
  | start => exact live
  | call _ _ _ _ live => exact live

/-- A feed's next chunk starts inside the address space. -/
theorem Feeds.cursor_lt {n : Nat} (h : Feeds out cap start stop s cursor r u) (space : stop ≤ 2 ^ s.platform.addrW)
    (nonempty : 1 ≤ n) (within : cursor + n ≤ stop) : cursor < 2 ^ u.platform.addrW := by
  rw [h.platform]
  omega

theorem Feeds.initialized (h : Feeds out cap start stop s cursor r u) (space : stop ≤ 2 ^ s.platform.addrW)
    (hs : s.decoder ≠ .uninit) : u.decoder ≠ .uninit := by
  cases h with
  | start => exact hs
  | call before nonempty within ran live =>
    exact (callEffect (before.cursor_lt space nonempty within) ran live).effect.initialized

end

theorem reportOf_gather (a : Nat) (f : Half) : reportOf a .gather f = [] := rfl

/-- Settles O54: every byte of the noise takes the row of `PFX0` back to `PFX0`. -/
theorem nonzeroNoiseIsSkipped : Obligations.NonzeroNoiseIsSkipped := by
  intro out cap start stop cursor s u r space hs noise h
  induction h with
  | start => exact ⟨rfl, hs, rfl⟩
  | @call cursor r u t n kind frame cons before nonempty within ran live hkind hframe hcons ih =>
    obtain ⟨rfl, hu, hmem⟩ := ih fun a hlo hhi => noise a hlo (by omega)
    have fits := before.cursor_lt space nonempty within
    have hg : u.decoder ≠ .gath := by simp [hu]
    obtain ⟨_, effect⟩ := (callEffect fits ran live).byte hg
    obtain rfl : cons = 1 := Reg.written.inj (hcons.symm.trans effect.resCons)
    have byte : Memory.read u.mem cursor ≠ 0x00#8 := hmem ▸ noise cursor before.start_le (by omega)
    obtain rfl := call_eq_row fits ran live hg (.nonzeroPrefix (by simp [hu]) byte)
    cases hkind
    exact ⟨rfl, rfl, hmem⟩

/-! ### Byte by byte -/

/-- A feed whose every call presents one byte: from `s`, `k` bytes from `start` on, with these reports, to the state
given. -/
inductive ByteFeeds (out : Nat) (cap : Half) (start : Nat) (s : State) : Nat → List Report → State → Prop where
  | start : ByteFeeds out cap start s 0 [] s
  | byte {k : Nat} {r : List Report} {u t : State} {kind : ResultKind} {frame : Half}
      (before : ByteFeeds out cap start s k r u) (fits : start + k < 2 ^ u.platform.addrW)
      (ran : exec .decode (presentChunk out cap (start + k) 1 u) = .next t) (live : t.Live)
      (hkind : t.resKind = .written kind) (hframe : t.resFrame = .written frame) :
      ByteFeeds out cap start s (k + 1) (r ++ reportOf (start + k) kind frame) t

section
variable {out start k : Nat} {cap : Half} {s u : State} {r : List Report}

theorem ByteFeeds.platform (h : ByteFeeds out cap start s k r u) : u.platform = s.platform := by
  induction h with
  | start => rfl
  | byte _ _ ran _ _ _ ih => exact (call_platform ran).trans ih

/-- Byte by byte a stream has one course, `DECODE` being a function. -/
theorem ByteFeeds.unique {r' : List Report} {u' : State} (h : ByteFeeds out cap start s k r u)
    (h' : ByteFeeds out cap start s k r' u') : r = r' ∧ u = u' := by
  induction h generalizing r' u' with
  | start => cases h'; exact ⟨rfl, rfl⟩
  | byte _ _ ran _ hkind hframe ih =>
    cases h' with
    | byte before' _ ran' _ hkind' hframe' =>
      obtain ⟨rfl, rfl⟩ := ih before'
      cases ran.symm.trans ran'
      cases hkind.symm.trans hkind'
      cases hframe.symm.trans hframe'
      exact ⟨rfl, rfl⟩

end

/-- `t` stands where `s` stands in a feed: it has the same handle, caller memory, `FAULT` and parameters. -/
structure SameStanding (s t : State) : Prop where
  decoder : t.decoder = s.decoder
  len : t.len = s.len
  offset : t.offset = s.offset
  mem : t.mem = s.mem
  fault : t.fault = s.fault
  platform : t.platform = s.platform

/-- `s` with the handle and the `DECODE` results of `t`. -/
def takeOutcome (t s : State) : State :=
  { s with
    decoder := t.decoder, len := t.len, offset := t.offset
    resKind := t.resKind, resFrame := t.resFrame, resCons := t.resCons }

/-- A row of the state machine reads only the handle, the byte, `ARG_LEN` and the parameters, so every state that
has the same takes it. -/
theorem ByteEffect.transfer {b : Byte} {s s' t : State} (h : ByteEffect b s t) (same : SameStanding s s')
    (hcap : s'.argLen = s.argLen) : ByteEffect b s' (takeOutcome t s') := by
  obtain ⟨decoder, len, offset, cmd, argBuf, argLen, argVer, argQid, argIn, argInlen, resLen, resKind, resFrame,
    resCons, fault, mem, platform, host⟩ := s'
  obtain ⟨rfl, rfl, rfl, rfl, rfl, rfl⟩ := same
  obtain rfl : argLen = s.argLen := hcap
  cases h
  case zeroPrefix d at_ byte => exact .zeroPrefix d at_ byte
  case nonzeroPrefix at_ byte => exact .nonzeroPrefix at_ byte
  case skipped d at_ => exact .skipped d at_
  case preamble d at_ byte => exact .preamble d at_ byte
  case noHeader at_ byte => exact .noHeader at_ byte
  case lengthLow at_ => exact .lengthLow at_
  case lengthHigh l at_ hlen => exact .lengthHigh l at_ hlen
  case invalidLength c l at_ hc hlen bad => exact .invalidLength c l at_ hc hlen bad
  case validLength c l at_ hc hlen high low => exact .validLength c l at_ hc hlen high low
  case footer at_ byte => exact .footer at_ byte
  case complete f at_ hoff byte => exact .complete f at_ hoff byte
  case noTail at_ byte => exact .noTail at_ byte

/-- A copy in two parts: the later bytes are copied after the earlier ones. -/
theorem Memory.copy_add (m : Memory) (src dst a b : Nat) :
    Memory.copy m src dst (a + b) = Memory.copy (Memory.copy m src dst a) (src + a) (dst + a) b := by
  induction a generalizing m src dst with
  | zero => simp [Memory.copy]
  | succ a ih =>
    rw [Nat.add_right_comm, Memory.copy, Memory.copy, ih, Nat.add_right_comm src, Nat.add_right_comm dst]
    rfl

/-- The handle and caller memory once `j` payload bytes from `src` on are gathered at `dst` (41_decoder.md R111). -/
def gathered (src dst : Nat) (len off : Half) (j : Nat) (s : State) : State :=
  { s with
    mem := Memory.copy s.mem src dst j
    offset := .written (BitVec.ofNat 16 (off.toNat + j))
    decoder := if off.toNat + j = len.toNat then .ft0 else .gath }

theorem GatherEffect.eq_gathered {src inlen out n : Nat} {cap len off : Half} {s t : State}
    (h : GatherEffect src inlen s t out cap len off n) :
    t = setDecodeResult .gather 0#16 n (gathered src (out + off.toNat) len off n s) := h.after

section
variable {s w : State} {src dst j : Nat} {len off : Half}

/-- The offset reached is a half-word, since it is at most `LEN`. -/
theorem offset_toNat (h : off.toNat + j ≤ len.toNat) : (BitVec.ofNat 16 (off.toNat + j)).toNat = off.toNat + j := by
  rw [BitVec.toNat_ofNat]
  exact Nat.mod_eq_of_lt (h.trans_lt len.isLt)

theorem gathered_zero (at_ : s.decoder = .gath) (hoff : s.offset = .written off) (more : off.toNat < len.toNat) :
    gathered src dst len off 0 s = s := by
  obtain ⟨decoder, slen, offset⟩ := s
  obtain rfl : decoder = .gath := at_
  obtain rfl : offset = .written off := hoff
  simp [gathered, Memory.copy, more.ne]

/-- Gathering one more byte. -/
theorem gathered_succ (h : off.toNat + j ≤ len.toNat) (same : SameStanding (gathered src dst len off j s) w) :
    SameStanding (gathered src dst len off (j + 1) s)
      (gathered (src + j) (dst + j) len (BitVec.ofNat 16 (off.toNat + j)) 1 w) where
  decoder := by simp only [gathered, offset_toNat h, Nat.add_assoc]
  len := same.len
  offset := by simp only [gathered, offset_toNat h, Nat.add_assoc]
  mem := by simp only [gathered, same.mem, Memory.copy_add _ _ _ j 1]
  fault := same.fault
  platform := same.platform

/-- Each byte of a gather step is a gather step of its own, once the bytes before it are gathered. -/
theorem GatherEffect.oneByte {inlen out n : Nat} {cap : Half} {t : State}
    (h : GatherEffect src inlen s t out cap len off n) (hj : j < n) (within : off.toNat + n ≤ len.toNat)
    (hout : w.argBuf = s.argBuf) (hcap : w.argLen = s.argLen)
    (same : SameStanding (gathered src (out + off.toNat) len off j s) w) :
    GatherEffect (src + j) 1 w
      (setDecodeResult .gather 0#16 1
        (gathered (src + j) (out + off.toNat + j) len (BitVec.ofNat 16 (off.toNat + j)) 1 w))
      out cap len (BitVec.ofNat 16 (off.toNat + j)) 1 := by
  have reached := offset_toNat (off := off) (len := len) (j := j) (by omega)
  have platform : w.platform = s.platform := same.platform
  have fits := h.fits
  refine ⟨hout.trans h.hout, hcap.trans h.hcap, same.len.trans h.hlen, same.offset, ?_, ?_, ?_, ?_, ?_, ?_⟩
  · omega
  · omega
  · rw [reached, rangesMeet_eq_false_iff]
    intro i hi i' hi'
    have apart := rangesMeet_eq_false_iff.mp h.apart j hj j hj
    omega
  · intro i hi
    obtain rfl : i = 0 := by omega
    exact platform ▸ h.readable j hj
  · intro i hi
    obtain rfl : i = 0 := by omega
    rw [reached, platform, ← Nat.add_assoc]
    exact h.writable j hj
  · simp only [gathered, reached, Nat.add_assoc]

end

section
variable {s t : State} (same : SameStanding s t)
include same

/-- Operand and result registers play no part in where a feed stands. -/
theorem SameStanding.presented (out : Nat) (cap : Half) (src n : Nat) :
    SameStanding s (presentChunk out cap src n t) := by
  obtain ⟨_, _, _, _, _, _⟩ := same
  constructor <;> assumption

theorem SameStanding.afterPresent (out : Nat) (cap : Half) (src n : Nat) :
    SameStanding (presentChunk out cap src n s) t := by
  obtain ⟨_, _, _, _, _, _⟩ := same
  constructor <;> assumption

theorem SameStanding.answered (k : ResultKind) (f : Half) (c : Nat) : SameStanding s (setDecodeResult k f c t) := by
  obtain ⟨_, _, _, _, _, _⟩ := same
  constructor <;> assumption

theorem SameStanding.afterAnswer (k : ResultKind) (f : Half) (c : Nat) : SameStanding (setDecodeResult k f c s) t := by
  obtain ⟨_, _, _, _, _, _⟩ := same
  constructor <;> assumption

end

section
variable {out start k n m out' : Nat} {cap cap' len off : Half} {s u u' t : State} {r : List Report}

/-- A row taken on one byte of a longer chunk is taken on that byte alone. -/
theorem ByteFeeds.byteRow (before : ByteFeeds out cap start s k r u') (same : SameStanding u u')
    (fits : start + k < 2 ^ u.platform.addrW) (hu : u.decoder ≠ .uninit) (hz : u.platform.addrBits n ≠ 0)
    (readable : memAdmit u.platform (start + k) .read = true)
    (effect : ByteEffect (Memory.read u.mem (start + k)) (presentChunk out cap (start + k) n u) t) (live : t.Live)
    {kind : ResultKind} {frame : Half} (hkind : t.resKind = .written kind) (hframe : t.resFrame = .written frame) :
    ∃ t', ByteFeeds out cap start s (k + 1) (r ++ reportOf (start + k) kind frame) t' ∧ SameStanding t t' := by
  have effect' := effect.transfer ((same.presented out cap (start + k) 1).afterPresent out cap (start + k) n) rfl
  rw [← same.mem] at effect'
  have fault : t.fault = u.fault := effect.fault
  have platform : t.platform = u.platform := effect.sameInputs.platform
  rw [← same.platform] at fits hz readable
  have ran := effect'.execDecode_eq (by simpa [same.decoder] using hu) (presentChunk_argIn out cap _ 1 u' fits) rfl
    (by simp [addrBits_one hz]) readable
  have fault' : t.fault = u'.fault := fault.trans same.fault.symm
  exact ⟨_, .byte before fits ran (fault'.symm.trans live) hkind hframe,
    rfl, rfl, rfl, same.mem.trans effect.mem.symm, fault'.symm, same.platform.trans platform.symm⟩

/-- A gather step of `m` bytes is `m` gather steps of one byte. -/
theorem ByteFeeds.gatherRow (before : ByteFeeds out cap start s k r u') (same : SameStanding u u')
    (hz : u.platform.addrBits n ≠ 0) (at_ : u.decoder = .gath) (inv : HandleInv u) (live : u.Live)
    (effect : GatherEffect (start + k) (u.platform.addrBits n) (presentChunk out cap (start + k) n u) t
      out' cap' len off m) (j : Nat) (hj : j ≤ m) :
    ∃ w, ByteFeeds out cap start s (k + j) r w ∧
      SameStanding (gathered (start + k) (out' + off.toNat) len off j u) w := by
  obtain ⟨moved, within, _⟩ := effect.count_bounds at_ hz (presentChunk_handleInv out cap _ n inv)
  induction j with
  | zero => exact ⟨u', before, (gathered_zero (len := len) at_ effect.hoff (by omega)).symm ▸ same⟩
  | succ j ih =>
    obtain ⟨w, feed, standing⟩ := ih (by omega)
    have platform : w.platform = u.platform := standing.platform
    have hbuf : (presentChunk out cap (start + k + j) 1 w).argBuf = (presentChunk out cap (start + k) n u).argBuf := by
      rw [presentChunk_argBuf, presentChunk_argBuf, platform]
    have presented := standing.presented out cap (start + k + j) 1
    have one := effect.oneByte hj within hbuf rfl (presented.afterPresent out cap (start + k) n)
    have gath : w.decoder = .gath := standing.decoder.trans (if_neg (by omega))
    have fits : start + k + j < 2 ^ w.platform.addrW := platform ▸ memAdmit_lt (effect.readable j hj)
    have ran := one.execDecode_eq gath (presentChunk_argIn out cap _ 1 w fits) (by
      rw [presentChunk_argInlen, platform, addrBits_one hz]) one_ne_zero
    rw [Nat.add_assoc] at fits ran
    have feed' := ByteFeeds.byte feed fits ran (standing.fault.trans live) rfl rfl
    rw [reportOf_gather, List.append_nil] at feed'
    refine ⟨_, feed', ?_⟩
    rw [← Nat.add_assoc]
    exact (gathered_succ (by omega) presented).answered _ _ _

/-- Every feed stands where the feed of the same bytes one by one stands, with the same reports. -/
theorem Feeds.byByte {stop cursor : Nat} (h : Feeds out cap start stop s cursor r u)
    (space : stop ≤ 2 ^ s.platform.addrW) (params : s.platform.WellFormed = true) (inv : HandleInv s) :
    ∃ k u', cursor = start + k ∧ ByteFeeds out cap start s k r u' ∧ SameStanding u u' := by
  induction h with
  | start => exact ⟨0, s, rfl, .start, by constructor <;> rfl⟩
  | @call cursor r u t n kind frame cons before nonempty within ran live hkind hframe hcons ih =>
    obtain ⟨k, u', rfl, before', same⟩ := ih
    have fits := before.cursor_lt space nonempty within
    have call := callEffect fits ran live
    by_cases at_ : u.decoder = .gath
    · obtain ⟨_, _, _, _, m, effect⟩ := call.gather at_
      have after := effect.eq_gathered
      have live' : u.Live := by rw [after] at live; exact live
      obtain ⟨w, feed, standing⟩ :=
        before'.gatherRow same call.nonempty at_ (before.handleInv params inv) live' effect m le_rfl
      rw [after] at hkind hcons
      cases hkind
      cases hcons
      rw [reportOf_gather, List.append_nil, after]
      exact ⟨k + cons, w, Nat.add_assoc _ _ _, feed, (standing.afterPresent out cap _ n).afterAnswer _ _ _⟩
    · obtain ⟨readable, effect⟩ := call.byte at_
      obtain ⟨t', feed, same'⟩ :=
        before'.byteRow same fits call.initialized call.nonempty readable effect live hkind hframe
      obtain rfl : cons = 1 := Reg.written.inj (hcons.symm.trans effect.resCons)
      exact ⟨k + 1, t', rfl, feed, same'⟩

end

/-- Settles O52: both feeds stand where the one feed byte by byte stands. -/
theorem chunkingInvariance : Obligations.ChunkingInvariance := by
  intro out cap start stop cursor s u v ru rv _ space params inv hu hv
  obtain ⟨k, u', rfl, feedU, sameU⟩ := hu.byByte space params inv
  obtain ⟨k', v', hk, feedV, sameV⟩ := hv.byByte space params inv
  obtain rfl : k = k' := by omega
  obtain ⟨rfl, rfl⟩ := feedU.unique feedV
  exact ⟨rfl, sameU.mem.symm.trans sameV.mem, sameU.decoder.symm.trans sameV.decoder,
    sameU.len.symm.trans sameV.len, sameU.offset.symm.trans sameV.offset⟩

end Sys2Proof.Machine
end

section
/-! PROOFS. Prefixed frames fed to `DECODE`: where each header byte takes the decoder, the judgement of the length at
stream index 11 (41_decoder.md R120), and the round trip of a whole frame (R117). -/

namespace Sys2Proof.Machine

/-! ### The header -/

/-- The stream at `start` begins as a prefixed frame does, and the decoder waits for it. -/
structure PrefixedHeader (start : Nat) (s : State) : Prop where
  decoder : s.decoder = .pfx0
  zero0 : Memory.read s.mem start = 0x00#8
  zero1 : Memory.read s.mem (start + 1) = 0x00#8
  preamble : ∀ k < 4, Memory.read s.mem (start + 4 + k) = 0xAA#8

/-- `LEN` after the low length byte, stream index 8. -/
def lengthLow (m : Memory) (start : Nat) : Half := (Memory.read m (start + 8)).setWidth 16

/-- `LEN` after both length bytes, stream indexes 8 and 9. -/
def headerLength (m : Memory) (start : Nat) : Half :=
  lengthLow m start ||| (Memory.read m (start + 9)).setWidth 16 <<< 8

theorem headerLength_toNat_bytes (m : Memory) (start : Nat) :
    (headerLength m start).toNat =
      (Memory.read m (start + 8)).toNat + 2 ^ 8 * (Memory.read m (start + 9)).toNat := by
  have low : (lengthLow m start).toNat = (Memory.read m (start + 8)).toNat := by
    rw [lengthLow, BitVec.toNat_setWidth]
    omega
  rw [headerLength, mergeLength_toNat (by omega), low]

/-- Up to index 11 of a prefixed frame, the tag of `STATE` counts the bytes consumed (10_state.md R23). -/
structure HeaderPosition (start : Nat) (s : State) (k : Nat) (u : State) : Prop where
  decoder : (stateTag u.decoder).toNat = k
  mem : u.mem = s.mem
  low : k = 9 → u.len = .written (lengthLow s.mem start)
  whole : 10 ≤ k → u.len = .written (headerLength s.mem start)

/-- `d'` has the next tag after `d`, and `d` writes no part of `LEN`. -/
abbrev NextTag (d d' : DecoderState) : Prop :=
  (stateTag d').toNat = (stateTag d).toNat + 1 ∧ d ≠ .len0 ∧ d ≠ .len1

theorem nextTag_zeroPrefix : ∀ p ∈ [(DecoderState.pfx0, DecoderState.pfx1), (.pfx1, .pfx2)], NextTag p.1 p.2 := by
  decide

theorem nextTag_skipped : ∀ p ∈ [(DecoderState.pfx2, DecoderState.pfx3), (.pfx3, .aa1), (.rsv0, .rsv1)],
    NextTag p.1 p.2 := by
  decide

theorem nextTag_preamble : ∀ p ∈ [(DecoderState.aa1, DecoderState.aa2), (.aa2, .aa3), (.aa3, .aa4), (.aa4, .len0)],
    NextTag p.1 p.2 := by
  decide

/-- The states of the header's zero bytes and of its preamble, by tag. -/
theorem tag_of_zeroState : ∀ d ∈ [DecoderState.pfx0, .pfx1], (stateTag d).toNat = 0 ∨ (stateTag d).toNat = 1 := by
  decide

theorem tag_of_preambleState : ∀ d ∈ [DecoderState.aa1, .aa2, .aa3, .aa4],
    4 ≤ (stateTag d).toNat ∧ (stateTag d).toNat < 4 + 4 := by
  decide

theorem tag_of_lateState : ∀ d ∈ [DecoderState.rsv1, .ft0, .ft1], 11 ≤ (stateTag d).toNat := by
  decide

theorem eq_of_tag {d d' : DecoderState} (h : (stateTag d).toNat = (stateTag d').toNat) : d = d' := by
  revert h
  cases d <;> cases d' <;> decide

section
variable {start k : Nat} {s u t : State}

/-- A row that moves to the next tag and leaves `LEN` alone. -/
theorem HeaderPosition.advance (h : HeaderPosition start s k u) (next : NextTag u.decoder t.decoder)
    (hmem : t.mem = u.mem) (hlen : t.len = u.len) : HeaderPosition start s (k + 1) t := by
  obtain ⟨tag, not0, not1⟩ := next
  have at_ := h.decoder
  refine ⟨by rw [tag, at_], hmem.trans h.mem, fun hk => ?_, fun hk => ?_⟩
  · obtain rfl : k = 8 := by omega
    exact absurd (eq_of_tag (d' := .len0) at_) not0
  · by_cases h9 : k = 9
    · exact absurd (eq_of_tag (d' := .len1) (at_.trans h9)) not1
    · exact hlen.trans (h.whole (by omega))

/-- A byte of a prefixed header is not one that its state refuses. -/
theorem HeaderPosition.zero (h : HeaderPosition start s k u) (hdr : PrefixedHeader start s)
    (hd : u.decoder ∈ [DecoderState.pfx0, .pfx1]) : Memory.read s.mem (start + k) = 0x00#8 := by
  have tag := tag_of_zeroState _ hd
  rw [h.decoder] at tag
  obtain rfl | rfl := tag
  · exact hdr.zero0
  · exact hdr.zero1

theorem HeaderPosition.preambleByte (h : HeaderPosition start s k u) (hdr : PrefixedHeader start s)
    (hd : u.decoder ∈ [DecoderState.aa1, .aa2, .aa3, .aa4]) : Memory.read s.mem (start + k) = 0xAA#8 := by
  obtain ⟨lo, hi⟩ := tag_of_preambleState _ hd
  rw [h.decoder] at lo hi
  have byte := hdr.preamble (k - 4) (by omega)
  rwa [Nat.add_assoc, Nat.add_sub_cancel' lo] at byte

/-- Before index 11, a byte of a prefixed header is reported as `GATHER` and moves `STATE` to the next tag. -/
theorem HeaderPosition.step (h : HeaderPosition start s k u) (hdr : PrefixedHeader start s) (hk : k < 11)
    (effect : ByteEffect (Memory.read s.mem (start + k)) u t) :
    t.resKind = .written .gather ∧ HeaderPosition start s (k + 1) t := by
  have at_ := h.decoder
  have early (hd : u.decoder ∈ [DecoderState.rsv1, .ft0, .ft1]) : False := by
    have late := tag_of_lateState _ hd
    omega
  cases effect
  case zeroPrefix d hd _ => exact ⟨rfl, h.advance (nextTag_zeroPrefix _ hd) rfl rfl⟩
  case nonzeroPrefix hd byte => exact absurd (h.zero hdr hd) byte
  case skipped d hd => exact ⟨rfl, h.advance (nextTag_skipped _ hd) rfl rfl⟩
  case preamble d hd _ => exact ⟨rfl, h.advance (nextTag_preamble _ hd) rfl rfl⟩
  case noHeader hd byte => exact absurd (h.preambleByte hdr hd) byte
  case lengthLow hd =>
    rw [hd] at at_
    obtain rfl : k = 8 := at_.symm
    exact ⟨rfl, rfl, h.mem, fun _ => rfl, by omega⟩
  case lengthHigh len hd hlen =>
    rw [hd] at at_
    obtain rfl : k = 9 := at_.symm
    obtain rfl : len = lengthLow s.mem start := Reg.written.inj (hlen.symm.trans (h.low rfl))
    exact ⟨rfl, rfl, h.mem, by omega, fun _ => rfl⟩
  case invalidLength hd _ _ _ => exact (early (by simp [hd])).elim
  case validLength hd _ _ _ _ => exact (early (by simp [hd])).elim
  case footer hd _ => exact (early (by simp [hd])).elim
  case complete hd _ _ => exact (early (by simp [hd])).elim
  case noTail hd _ => exact (early (List.mem_cons_of_mem _ hd)).elim

theorem HeaderPosition.not_gath (h : HeaderPosition start s k u) (hk : k ≤ 11) : u.decoder ≠ .gath := by
  intro hd
  have tag := h.decoder
  rw [hd] at tag
  exact absurd hk (by rw [← tag]; decide)

theorem HeaderPosition.presented (h : HeaderPosition start s k u) (out : Nat) (cap : Half) (src n : Nat) :
    HeaderPosition start s k (presentChunk out cap src n u) :=
  ⟨h.decoder, h.mem, h.low, h.whole⟩

variable {out : Nat} {cap : Half} {r : List Report}

theorem ByteFeeds.header (h : ByteFeeds out cap start s k r u) (hdr : PrefixedHeader start s) (hk : k ≤ 11) :
    r = [] ∧ HeaderPosition start s k u := by
  induction h with
  | start => exact ⟨rfl, by rw [hdr.decoder]; rfl, rfl, by omega, by omega⟩
  | @byte k r u t kind frame before fits ran live hkind hframe ih =>
    obtain ⟨rfl, position⟩ := ih (by omega)
    obtain ⟨_, effect⟩ := (callEffect fits ran live).byte (position.not_gath (by omega))
    rw [position.mem] at effect
    obtain ⟨gathers, position'⟩ := (position.presented out cap _ 1).step hdr (by omega) effect
    obtain rfl : kind = .gather := Reg.written.inj (hkind.symm.trans gathers)
    exact ⟨rfl, position'⟩

/-- Where the length check of stream index 11 leaves the decoder, and what it reports (41_decoder.md R110, R120). -/
structure Judged (cap : Half) (start : Nat) (s : State) (r : List Report) (t : State) : Prop where
  len : t.len = .written (headerLength s.mem start)
  mem : t.mem = s.mem
  verdict :
    if s.platform.ethMinLen ≤ (headerLength s.mem start).toNat ∧ (headerLength s.mem start).toNat ≤ cap.toNat then
      r = [] ∧ t.decoder = .gath ∧ t.offset = .written 0#16
    else r = [{ address := start + 11, kind := .invalidLength, frame := 0#16 }] ∧ t.decoder = .pfx0

theorem ByteFeeds.judged (h : ByteFeeds out cap start s 12 r t) (hdr : PrefixedHeader start s) :
    Judged cap start s r t := by
  cases h with
  | @byte _ r u _ kind frame before fits ran live hkind hframe =>
    obtain ⟨rfl, position⟩ := before.header hdr le_rfl
    have at_ : u.decoder = .rsv1 := eq_of_tag (d' := .rsv1) position.decoder
    have hlen := position.whole (by decide)
    have platform := before.platform
    have hg : u.decoder ≠ .gath := by simp [at_]
    by_cases good : s.platform.ethMinLen ≤ (headerLength s.mem start).toNat ∧
        (headerLength s.mem start).toNat ≤ cap.toNat
    · obtain rfl := call_eq_row fits ran live hg
        (.validLength cap _ at_ rfl hlen good.2 (by rw [presentChunk_platform, platform]; exact good.1))
      cases hkind
      exact ⟨hlen, position.mem, by rw [if_pos good]; exact ⟨rfl, rfl, rfl⟩⟩
    · obtain rfl := call_eq_row fits ran live hg
        (.invalidLength cap _ at_ rfl hlen (by rw [presentChunk_platform, platform]; omega))
      cases hkind
      cases hframe
      exact ⟨hlen, position.mem, by rw [if_neg good]; exact ⟨rfl, rfl⟩⟩

end

/-- Settles O53: the feed stands where the feed of the same twelve bytes one by one stands. -/
theorem prefixedHeaderJudgesLength : Obligations.PrefixedHeaderJudgesLength := by
  intro out cap start stop s u r space params hs zero0 zero1 preamble h
  have inv : HandleInv s := handleInv_of_early (by simp [hs])
  obtain ⟨k, u', hk, feed, same⟩ := h.byByte space params inv
  obtain rfl : k = 12 := by omega
  have judged := feed.judged ⟨hs, zero0, zero1, preamble⟩
  refine ⟨_, headerLength_toNat_bytes s.mem start, same.len.symm.trans judged.len, same.mem.symm.trans judged.mem, ?_⟩
  rw [← same.decoder, ← same.offset]
  exact judged.verdict

/-! ### The round trip -/

/-- A prefixed envelope of payload length `l` stands at `start`, where the decoder waits for it with an output buffer
that can take it, apart from the stream (41_decoder.md R117). -/
structure PrefixedFrame (out : Nat) (cap l : Half) (start : Nat) (s : State) : Prop extends
    PrefixedHeader start s where
  space : start + l.toNat + 14 ≤ 2 ^ s.platform.addrW
  params : s.platform.WellFormed = true
  live : s.Live
  length : headerLength s.mem start = l
  low : s.platform.ethMinLen ≤ l.toNat
  high : l.toNat ≤ cap.toNat
  footer0 : Memory.read s.mem (start + 12 + l.toNat) = 0x55#8
  footer1 : Memory.read s.mem (start + 13 + l.toNat) = 0x55#8
  readable : ∀ k < l.toNat + 14, memAdmit s.platform (start + k) .read = true
  writable : ∀ k < l.toNat, memAdmit s.platform (out + k) .write = true
  apart : out + l.toNat ≤ start ∨ start + l.toNat + 14 ≤ out

/-- Once `j` payload bytes of the frame are consumed. -/
structure PayloadPosition (out : Nat) (l : Half) (start : Nat) (s : State) (j : Nat) (u : State) : Prop where
  decoder : u.decoder = if j = l.toNat then .ft0 else .gath
  len : u.len = .written l
  offset : u.offset = .written (BitVec.ofNat 16 j)
  mem : u.mem = Memory.copy s.mem (start + 12) out j

section
variable {out start : Nat} {cap l : Half} {s : State}

theorem PrefixedFrame.inv (fr : PrefixedFrame out cap l start s) : HandleInv s :=
  handleInv_of_early (by simp [fr.decoder])

theorem PrefixedFrame.length_pos (fr : PrefixedFrame out cap l start s) : 1 ≤ l.toNat :=
  (ethMinLen_pos fr.params).trans fr.low

theorem PrefixedFrame.addrBits_out (fr : PrefixedFrame out cap l start s) : s.platform.addrBits out = out :=
  addrBits_of_lt (memAdmit_lt (fr.writable 0 fr.length_pos))

/-- The output buffer takes room in the address space, so no chunk of the stream fills it. -/
theorem PrefixedFrame.addrBits_chunk (fr : PrefixedFrame out cap l start s) {n : Nat} (h : n ≤ l.toNat + 14) :
    s.platform.addrBits n = n := by
  have room := memAdmit_lt (fr.writable 0 fr.length_pos)
  have := fr.apart
  have := fr.space
  have := fr.length_pos
  exact addrBits_of_lt (by omega)

/-- Memory with the payload copied to the output buffer. -/
theorem PrefixedFrame.read_payload (fr : PrefixedFrame out cap l start s) (x : Nat) :
    Memory.read (Memory.copy s.mem (start + 12) out l.toNat) x =
      if out ≤ x ∧ x < out + l.toNat then Memory.read s.mem (start + 12 + (x - out)) else Memory.read s.mem x := by
  have apart := fr.apart
  refine Memory.read_copy _ _ _ _ ?_ x
  simp only [rangesMeet, decide_eq_false_iff_not]
  omega

/-- Copying the payload leaves the stream as it was. -/
theorem PrefixedFrame.read_stream (fr : PrefixedFrame out cap l start s) {x : Nat}
    (hx : start ≤ x ∧ x < start + l.toNat + 14) :
    Memory.read (Memory.copy s.mem (start + 12) out l.toNat) x = Memory.read s.mem x := by
  have apart := fr.apart
  rw [fr.read_payload, if_neg (by omega)]

variable {j k : Nat} {r : List Report} {u t : State}

/-- A call for one payload byte copies it and is reported as `GATHER`. -/
theorem PayloadPosition.step (h : PayloadPosition out l start s j u) (fr : PrefixedFrame out cap l start s)
    (hj : j < l.toNat) (platform : u.platform = s.platform) (call : CallEffect out cap (start + (12 + j)) 1 u t) :
    t.resKind = .written .gather ∧ PayloadPosition out l start s (j + 1) t := by
  obtain ⟨out', cap', len, off, m, effect⟩ := call.gather (h.decoder.trans (if_neg hj.ne))
  obtain rfl : out = out' := by
    have hout := Reg.written.inj effect.hout
    rwa [platform, fr.addrBits_out] at hout
  obtain rfl : l = len := Reg.written.inj (h.len.symm.trans effect.hlen)
  obtain rfl : BitVec.ofNat 16 j = off := Reg.written.inj (h.offset.symm.trans effect.hoff)
  have reached : (BitVec.ofNat 16 j).toNat = j := Nat.mod_eq_of_lt (by omega)
  obtain rfl : m = 1 := by
    rw [effect.hn, reached, addrBits_one call.nonempty]
    omega
  have after := effect.eq_gathered
  rw [reached] at after
  subst after
  refine ⟨rfl, ?_, h.len, ?_, ?_⟩
  · simp only [setDecodeResult_decoder, gathered, reached]
  · simp only [setDecodeResult_offset, gathered, reached]
  · simp only [setDecodeResult_mem, gathered, presentChunk_mem, h.mem, Memory.copy_add _ _ _ j 1, Nat.add_assoc]

theorem ByteFeeds.payload (h : ByteFeeds out cap start s (12 + j) r u) (fr : PrefixedFrame out cap l start s)
    (hj : j ≤ l.toNat) : r = [] ∧ PayloadPosition out l start s j u := by
  induction j generalizing r u with
  | zero =>
    obtain ⟨len, mem, verdict⟩ := h.judged fr.toPrefixedHeader
    rw [fr.length] at len verdict
    rw [if_pos ⟨fr.low, fr.high⟩] at verdict
    obtain ⟨hr, hd, hoff⟩ := verdict
    have pos := fr.length_pos
    exact ⟨hr, by rw [hd, if_neg (by omega)], len, hoff, mem⟩
  | succ j ih =>
    cases h with
    | byte before fits ran live hkind hframe =>
      obtain ⟨rfl, position⟩ := ih before (by omega)
      obtain ⟨gathers, position'⟩ := position.step fr hj before.platform (callEffect fits ran live)
      cases hkind.symm.trans gathers
      exact ⟨rfl, position'⟩

/-- Between the two footer bytes. -/
theorem ByteFeeds.footer (h : ByteFeeds out cap start s (12 + l.toNat + 1) r u)
    (fr : PrefixedFrame out cap l start s) :
    r = [] ∧ u.decoder = .ft1 ∧ u.offset = .written l ∧
      u.mem = Memory.copy s.mem (start + 12) out l.toNat := by
  cases h with
  | @byte _ r u _ kind frame before fits ran live hkind hframe =>
    obtain ⟨rfl, position⟩ := before.payload fr le_rfl
    have at_ : u.decoder = .ft0 := position.decoder.trans (if_pos rfl)
    have byte : Memory.read u.mem (start + (12 + l.toNat)) = 0x55#8 := by
      rw [position.mem, fr.read_stream (by omega), ← Nat.add_assoc]
      exact fr.footer0
    obtain rfl := call_eq_row fits ran live (by simp [at_]) (.footer at_ byte)
    cases hkind
    have offset := position.offset
    rw [BitVec.ofNat_toNat, BitVec.setWidth_eq] at offset
    exact ⟨rfl, rfl, offset, position.mem⟩

/-- At the end of the frame. -/
theorem ByteFeeds.complete (h : ByteFeeds out cap start s (12 + l.toNat + 2) r u)
    (fr : PrefixedFrame out cap l start s) :
    r = [{ address := start + l.toNat + 13, kind := .frame, frame := l }] ∧ u.decoder = .pfx0 ∧
      u.mem = Memory.copy s.mem (start + 12) out l.toNat := by
  cases h with
  | @byte _ r u _ kind frame before fits ran live hkind hframe =>
    obtain ⟨rfl, at_, offset, mem⟩ := before.footer fr
    have address : start + (12 + l.toNat + 1) = start + l.toNat + 13 := by omega
    have byte : Memory.read u.mem (start + (12 + l.toNat + 1)) = 0x55#8 := by
      rw [mem, fr.read_stream (by omega), address, Nat.add_right_comm]
      exact fr.footer1
    obtain rfl := call_eq_row fits ran live (by simp [at_]) (.complete l at_ offset byte)
    cases hkind
    cases hframe
    exact ⟨by rw [← address]; rfl, rfl, mem⟩

/-- Inside the frame, the decoder gathers only payload bytes. -/
theorem ByteFeeds.gather_position (h : ByteFeeds out cap start s k r u) (fr : PrefixedFrame out cap l start s)
    (hk : k < l.toNat + 14) (hd : u.decoder = .gath) :
    ∃ j < l.toNat, k = 12 + j ∧ u.len = .written l ∧ u.offset = .written (BitVec.ofNat 16 j) := by
  by_cases early : k ≤ 11
  · exact absurd hd ((h.header fr.toPrefixedHeader early).2.not_gath early)
  by_cases late : k = 12 + l.toNat + 1
  · subst late
    simp [(h.footer fr).2.1] at hd
  obtain ⟨j, rfl⟩ := Nat.exists_eq_add_of_le (Nat.lt_of_not_le early)
  obtain ⟨_, position⟩ := h.payload fr (by omega)
  have decoder := position.decoder
  rw [hd] at decoder
  refine ⟨j, ?_, rfl, position.len, position.offset⟩
  by_contra full
  rw [if_pos (by omega)] at decoder
  cases decoder

end

/-! ### Progress -/

/-- A single-byte `DECODE` with its operands written and its byte admitted completes. -/
theorem execDecode_byte_completes {s : State} {src inlen : Nat} (hu : s.decoder ≠ .uninit) (hg : s.decoder ≠ .gath)
    (hsrc : s.argIn = .written src) (hinlen : s.argInlen = .written inlen) (hz : inlen ≠ 0)
    (hr : memAdmit s.platform src .read = true) (hcap : s.argLen ≠ .unwritten) (inv : HandleInv s) (live : s.Live) :
    ∃ t, exec .decode s = .next t ∧ t.Live := by
  obtain ⟨t, arm⟩ := decodeArm_guarded (src := src) (inlen := inlen) hu hg fun _ => hcap
  rw [hr, whenAdmitted_true] at arm
  refine ⟨t, (execDecode_ready hu hsrc hinlen hz).trans arm, ?_⟩
  obtain ⟨⟨_, h⟩ | ⟨hd, h⟩ | ⟨hd, h⟩, _⟩ | effect := decodeArm_next_byte hu hg arm
  · exact absurd h hcap
  · exact absurd h (inv.len_written
      ((by decide : [DecoderState.len1, .rsv1] ⊆ [.len1, .rsv0, .rsv1, .gath, .ft0, .ft1]) hd))
  · exact absurd h (inv.offset_written (by simp [hd]))
  · exact effect.fault.trans live

section
variable {out start cursor j n inlen : Nat} {cap l : Half} {s u : State} {r : List Report}

/-- Among the payload bytes, every chunk passes the checks of `GATH`. -/
theorem PrefixedFrame.exists_gatherEffect (fr : PrefixedFrame out cap l start s) (hj : j < l.toNat)
    (platform : u.platform = s.platform) (hlen : u.len = .written l)
    (hoff : u.offset = .written (BitVec.ofNat 16 j)) :
    ∃ t, GatherEffect (start + (12 + j)) inlen (presentChunk out cap (start + (12 + j)) n u) t out cap l
      (BitVec.ofNat 16 j) (min inlen (l.toNat - j)) := by
  have reached : (BitVec.ofNat 16 j).toNat = j := Nat.mod_eq_of_lt (by omega)
  have apart := fr.apart
  have high := fr.high
  refine ⟨_, ?_, rfl, hlen, hoff, ?_, ?_, ?_, ?_, ?_, rfl⟩
  · rw [presentChunk_argBuf, platform, fr.addrBits_out]
  · rw [reached]
  · omega
  · simp only [reached, rangesMeet, decide_eq_false_iff_not]
    omega
  · intro i hi
    rw [presentChunk_platform, platform, Nat.add_assoc]
    exact fr.readable _ (by omega)
  · intro i hi
    rw [presentChunk_platform, platform, reached, Nat.add_assoc]
    exact fr.writable _ (by omega)

/-- No chunk of the frame makes `DECODE` fault or stick. -/
theorem Feeds.progress (h : Feeds out cap start (start + l.toNat + 14) s cursor r u)
    (fr : PrefixedFrame out cap l start s) (nonempty : 1 ≤ n) (within : cursor + n ≤ start + l.toNat + 14) :
    ∃ t, exec .decode (presentChunk out cap cursor n u) = .next t ∧ t.Live := by
  have fits := h.cursor_lt fr.space nonempty within
  have hsrc := presentChunk_argIn out cap cursor n u fits
  have platform := h.platform
  have reached := h.start_le
  have chunk : u.platform.addrBits n = n := by
    rw [platform]
    exact fr.addrBits_chunk (by omega)
  have hz : u.platform.addrBits n ≠ 0 := by omega
  obtain ⟨k, u', rfl, feed, same⟩ := h.byByte fr.space fr.params fr.inv
  by_cases hd : u.decoder = .gath
  · obtain ⟨j, hj, rfl, hlen, hoff⟩ := feed.gather_position fr (by omega) (same.decoder.trans hd)
    obtain ⟨t, effect⟩ :=
      fr.exists_gatherEffect hj platform (same.len.symm.trans hlen) (same.offset.symm.trans hoff)
    exact ⟨t, effect.execDecode_eq hd hsrc rfl hz, by rw [effect.after]; exact h.live fr.live⟩
  · exact execDecode_byte_completes (h.initialized fr.space (by simp [fr.decoder])) hd hsrc rfl hz
      (platform ▸ fr.readable k (by omega)) (by simp)
      (presentChunk_handleInv _ _ _ _ (h.handleInv fr.params fr.inv)) (h.live fr.live)

/-- One byte at a time, a feed reaches every address of the frame. -/
theorem Feeds.exists_upto (fr : PrefixedFrame out cap l start s) {k : Nat} (hk : k ≤ l.toNat + 14) :
    ∃ r u, Feeds out cap start (start + l.toNat + 14) s (start + k) r u := by
  induction k with
  | zero => exact ⟨[], s, .start⟩
  | succ k ih =>
    obtain ⟨r, u, feed⟩ := ih (by omega)
    have within : start + k + 1 ≤ start + l.toNat + 14 := by omega
    obtain ⟨t, ran, live⟩ := feed.progress fr le_rfl within
    obtain ⟨kind, frame, cons, hkind, hframe, hcons, moved, most⟩ :=
      (callEffect (feed.cursor_lt fr.space le_rfl within) ran live).results (feed.handleInv fr.params fr.inv)
    obtain rfl : cons = 1 := by omega
    exact ⟨_, t, Feeds.call (cursor := start + k) feed le_rfl within ran live hkind hframe hcons⟩

end

/-- The length the decoder reads off the header is the packed one (30_encoding.md R61). -/
theorem headerLength_eq {m : Memory} {start : Nat} {l : Half} {v : Word}
    (header : ∀ k < 8, (headerBytes l v)[k]? = some (Memory.read m (start + 4 + k)))
    (survives : v = 0#32 ∨ v.toNat % 8 = l.toNat / 2 ^ 13) : headerLength m start = l := by
  have byte8 : l.extractLsb' 0 8 = Memory.read m (start + 8) := Option.some.inj (header 4 (by decide))
  have byte9 : headerLenHigh l v = Memory.read m (start + 9) := Option.some.inj (header 5 (by decide))
  apply BitVec.eq_of_toNat_eq
  rw [headerLength_toNat_bytes, ← byte8, ← byte9, headerLength_toNat]
  split
  · rfl
  · obtain hv | hv := survives
    · contradiction
    · omega

theorem preamble_of_headerBytes {m : Memory} {start : Nat} {l : Half} {v : Word}
    (header : ∀ k < 8, (headerBytes l v)[k]? = some (Memory.read m (start + 4 + k))) :
    ∀ k < 4, Memory.read m (start + 4 + k) = 0xAA#8 := by
  intro k hk
  have byte := header k (by omega)
  interval_cases k <;> exact (Option.some.inj byte).symm

/-- Settles O55: every chunking stands where the feed byte by byte stands, whose course through header, payload and
footer is known, and at each position of it no chunk faults or sticks. -/
theorem prefixedFrameRoundTrip : Obligations.PrefixedFrameRoundTrip := by
  intro out cap l v start s space params live hs _ survives low high zero0 zero1 header footer0 footer1 readable
    writable apart
  have fr : PrefixedFrame out cap l start s :=
    { decoder := hs, zero0, zero1, preamble := preamble_of_headerBytes header, space, params, live
      length := headerLength_eq header survives, low, high, footer0, footer1, readable, writable, apart }
  refine ⟨fun cursor n r u h => h.progress fr, Feeds.exists_upto fr le_rfl, fun r u h => ?_⟩
  obtain ⟨k, u', hk, feed, same⟩ := h.byByte fr.space fr.params fr.inv
  obtain rfl : k = 12 + l.toNat + 2 := by omega
  obtain ⟨hr, hd, mem⟩ := feed.complete fr
  rw [← same.mem, mem]
  refine ⟨hr, same.decoder.symm.trans hd, fun k hk => ?_, fun x hx => ?_⟩
  · rw [fr.read_payload, if_pos (by omega), Nat.add_sub_cancel_left]
  · rw [fr.read_payload, if_neg (by omega)]

end Sys2Proof.Machine
end

section
/-! PROOFS. Faults and results (60_exceptions.md): the moves that run no command, the states each framing error comes
from, that a fault changes nothing else, and that the first failed check of a command is the fault it takes. -/

namespace Sys2Proof.Machine

/-! ### Moves that run no command -/

/-- Settles O10: with no move to fetch, the step is quiet. -/
theorem idleStepChangesNothing : Obligations.IdleStepChangesNothing := by
  intro s h
  simp only [step, fetch, h]

/-- Settles O13: a `CMD` word is accepted only while `FAULT` is 0. -/
theorem faultedCodecIgnoresCommands : Obligations.FaultedCodecIgnoresCommands := by
  intro s rest w h faulted
  have ignored : acceptCmd w { s with host := rest } = .quiet { s with host := rest } := if_neg faulted
  simp only [step, fetch, h, ignored]

/-! ### Framing errors -/

/-- The states from which a `DECODE` can report a kind (60_exceptions.md R140, 41_decoder.md R113). -/
def ReportedFrom (d : DecoderState) : ResultKind → Prop
  | .gather => d ≠ .ft1
  | .frame => d = .ft1
  | .noHeader => d ∈ [.aa1, .aa2, .aa3, .aa4]
  | .invalidLength => d = .rsv1
  | .noTail => d ∈ [.ft0, .ft1]

/-- A row reports its kind from its own state; no row of `FT1` reports `GATHER`. -/
theorem ByteEffect.reportedFrom {b : Byte} {s t : State} {k : ResultKind} (h : ByteEffect b s t)
    (hk : t.resKind = .written k) : ReportedFrom s.decoder k := by
  cases h <;> cases hk
  case noHeader at_ _ => exact at_
  case invalidLength at_ _ _ _ => exact at_
  case complete at_ _ _ => exact at_
  case noTail at_ _ => exact at_
  all_goals
    intro hd
    simp_all

theorem execDecode_reportedFrom {s t : State} {k : ResultKind} (h : exec .decode s = .next t) (live : t.Live)
    (hk : t.resKind = .written k) : ReportedFrom s.decoder k := by
  obtain ⟨src, inlen, _, _, _, _, ⟨_, _, effect⟩ | ⟨at_, _, _, _, _, _, effect⟩⟩ := execDecode_live h live
  · exact effect.reportedFrom hk
  · rw [effect.after] at hk
    cases hk
    simp [ReportedFrom, at_]

/-- Settles O35: each kind is reported from the states of its rows, and the gather step reports `GATHER`. -/
theorem framingErrorsComeFromTheirStates : Obligations.FramingErrorsComeFromTheirStates := fun _ _ h live =>
  ⟨execDecode_reportedFrom h live, execDecode_reportedFrom h live, execDecode_reportedFrom h live,
    execDecode_reportedFrom h live⟩

/-! ### Faults are precise -/

theorem emitBytes_fault {buf : Nat} {bytes : List Byte} {s t : State} (h : emitBytes buf bytes s = .next t) :
    t.fault = s.fault := by
  obtain ⟨_, rfl⟩ := emitBytes_next h
  rfl

theorem DecodeEffect.fault {src inlen : Nat} {s t : State} (h : DecodeEffect src inlen s t) : t.fault = s.fault := by
  cases h with
  | byte _ _ effect => exact effect.fault
  | gather _ _ _ _ _ _ effect => rw [effect.after]; rfl

/-- A command that answers a next state records a fault and does nothing else, or leaves `FAULT` as it is. -/
theorem exec_fault {i : Instr} {s t : State} (h : exec i s = .next t) :
    (∃ c, t = recordFault c s) ∨ t.fault = s.fault := by
  obtain ⟨c, _, rfl⟩ | ⟨_, _, _, _, _, he⟩ | ⟨_, rfl⟩ | ⟨_, _, _, _, _, _, _, effect⟩ := exec_next h
  · exact .inl ⟨c, rfl⟩
  · exact .inr (emitBytes_fault he)
  · exact .inr rfl
  · exact .inr effect.fault

/-- Settles O40: the one way to change `FAULT` is to record it and do nothing else. -/
theorem faultsArePrecise : Obligations.FaultsArePrecise := by
  intro i s t h changed
  obtain ⟨c, rfl⟩ | unchanged := exec_fault h
  · rfl
  · exact absurd unchanged changed

/-! ### The first failed check -/

theorem Reg.isUnwritten_iff {α : Type} {r : Reg α} : r.isUnwritten = true ↔ r = .unwritten := by
  cases r <;> simp [Reg.isUnwritten]

theorem Reg.isUnwritten_eq_false_iff {α : Type} {r : Reg α} : r.isUnwritten = false ↔ ∃ v, r = .written v := by
  cases r <;> simp [Reg.isUnwritten]

theorem Reg.fails_iff {α : Type} {r : Reg α} {bad : α → Bool} :
    r.fails bad = true ↔ ∃ v, r = .written v ∧ bad v = true := by
  cases r <;> simp [Reg.fails]

/-- The overlap check of R144's list, over all pairs of bytes, is the one `GATH` makes. -/
theorem any_meet_eq_rangesMeet (a b n : Nat) :
    ((List.range n).any fun i => (List.range n).any fun j => a + i == b + j) = rangesMeet a b n := by
  rw [Bool.eq_iff_iff, rangesMeet_iff]
  simp

/-- A check of `GATH` fails only with `LEN` and `OFFSET` written. -/
theorem handle_written_of_gathFails {s : State} {bad : Nat → Nat → Nat → Nat → Nat → Bool}
    (h : gathFails s bad = true) : ∃ len off, s.len = .written len ∧ s.offset = .written off := by
  simp only [gathFails, Reg.fails_iff] at h
  obtain ⟨_, _, _, _, _, _, _, _, len, hlen, off, hoff, _⟩ := h
  exact ⟨len, off, hlen, hoff⟩

/-- The answer is the one the checks call for (60_exceptions.md R144): the fault of the first that fails, or, if none
fails and the state meets the handle's invariant, no fault. -/
def AnswersChecks (s : State) (checks : List (Bool × FaultCode)) (ans : Answer) : Prop :=
  match firstFailure checks with
  | some cause => ans = .next (recordFault cause s)
  | none => HandleInv s → ∀ t, ans = .next t → t.fault = s.fault

section
variable {s : State} {ans : Answer}

theorem AnswersChecks.nil (h : HandleInv s → ∀ t, ans = .next t → t.fault = s.fault) : AnswersChecks s [] ans := h

theorem AnswersChecks.cons {failed : Bool} {cause : FaultCode} {rest : List (Bool × FaultCode)}
    (fails : failed = true → ans = .next (recordFault cause s))
    (passes : failed = false → AnswersChecks s rest ans) : AnswersChecks s ((failed, cause) :: rest) ans := by
  cases failed with
  | true => exact fails rfl
  | false => exact passes rfl

theorem AnswersChecks.skip {failed : Bool} {cause : FaultCode} {rest : List (Bool × FaultCode)}
    (passed : failed = false) (h : AnswersChecks s rest ans) : AnswersChecks s ((failed, cause) :: rest) ans := by
  subst passed
  exact h

theorem AnswersChecks.emitBytes {buf : Nat} {bytes : List Byte} (h : ans = emitBytes buf bytes s) :
    AnswersChecks s [] ans :=
  .nil fun _ _ ht => emitBytes_fault (h.symm.trans ht)

end

section
variable {s t : State} {src inlen : Nat}

/-- Outside `GATH` the arm takes no fault once `RSV1` has found its capacity: the invariant has `LEN` and `OFFSET`
written where they are read. -/
theorem decodeArm_keeps_fault (inv : HandleInv s) (hu : s.decoder ≠ .uninit) (hg : s.decoder ≠ .gath)
    (hcap : s.decoder = .rsv1 → s.argLen ≠ .unwritten) (h : decodeArm src inlen s = .next t) :
    t.fault = s.fault := by
  obtain ⟨⟨hd, hc⟩ | ⟨hd, hl⟩ | ⟨hd, ho⟩, _⟩ | effect := decodeArm_next_byte hu hg h
  · exact absurd hc (hcap hd)
  · exact absurd hl (inv.len_written
      ((by decide : [DecoderState.len1, .rsv1] ⊆ [.len1, .rsv0, .rsv1, .gath, .ft0, .ft1]) hd))
  · exact absurd ho (inv.offset_written (by simp [hd]))
  · exact effect.fault

theorem decodeArm_eq_armGath (hg : s.decoder = .gath) : decodeArm src inlen s = armGath src inlen s := by
  simp only [decodeArm, hg]

/-- `GATH` takes no fault once its registers are written, the bytes fit and the ranges are apart. -/
theorem armGath_keeps_fault {out : Nat} {cap len off : Half} (hout : s.argBuf = .written out)
    (hcap : s.argLen = .written cap) (hlen : s.len = .written len) (hoff : s.offset = .written off)
    (fits : off.toNat + min inlen (len.toNat - off.toNat) ≤ cap.toNat)
    (apart : rangesMeet src (out + off.toNat) (min inlen (len.toNat - off.toNat)) = false)
    (h : armGath src inlen s = .next t) : t.fault = s.fault := by
  rw [armGath_written hout hcap hlen hoff rfl, if_neg fits.not_gt, if_neg (by simp [apart])] at h
  obtain ⟨_, ht⟩ := whenAdmitted_next h
  cases ht
  rfl

variable (hsrc : s.argIn = .written src) (hinlen : s.argInlen = .written inlen) (hz : inlen ≠ 0)
include hsrc hinlen hz

/-- The one check after the pre-checks outside `GATH` is that of `RSV1`. -/
theorem execDecode_byte_answersChecks (hu : s.decoder ≠ .uninit) (hg : s.decoder ≠ .gath) :
    AnswersChecks s ((preconditionChecks .decode s).drop 3) (exec .decode s) := by
  refine .cons (fun h => ?_) fun h => ?_
  · simp only [Bool.and_eq_true, beq_iff_eq, Reg.isUnwritten_iff] at h
    obtain ⟨hd, hcap⟩ := h
    exact (secondReservedByteChecksLength s src inlen hd hsrc hinlen hz).1 hcap
  · have hcap : s.decoder = .rsv1 → s.argLen ≠ .unwritten := by
      simpa [← Reg.isUnwritten_iff] using h
    refine .skip (by simp [hg]) (.skip (by simp [hg]) (.skip (by simp [hg]) (.nil fun inv t ht => ?_)))
    rw [execDecode_ready hu hsrc hinlen hz] at ht
    exact decodeArm_keeps_fault inv hu hg hcap ht

/-- The checks after the pre-checks in `GATH`, in the order of 41_decoder.md R111. -/
theorem execDecode_gath_answersChecks (hg : s.decoder = .gath) :
    AnswersChecks s ((preconditionChecks .decode s).drop 3) (exec .decode s) := by
  obtain ⟨unwritten, rows⟩ := gatherCopiesPayload s src inlen hg hsrc hinlen hz
  refine .skip (by simp [hg]) (.cons (fun h => unwritten ?_) fun h => ?_)
  · simpa [hg, Reg.isUnwritten_iff] using h
  have gath (fails : Bool) : (s.decoder == .gath && fails) = fails := by simp [hg]
  simp only [gath, Bool.or_eq_false_iff, Reg.isUnwritten_eq_false_iff] at h
  obtain ⟨⟨out, hout⟩, cap, hcap⟩ := h
  have check {len off : Half} (hlen : s.len = .written len) (hoff : s.offset = .written off) :=
    gathFails_written hsrc hinlen hout hcap hlen hoff
  refine .cons (fun exceeds => ?_) fun fits => .cons (fun meet => ?_) fun apart => .nil fun inv t ht => ?_
  · rw [gath] at exceeds
    obtain ⟨len, off, hlen, hoff⟩ := handle_written_of_gathFails exceeds
    rw [check hlen hoff, decide_eq_true_eq] at exceeds
    exact (rows out cap len off _ hout hcap hlen hoff rfl).1 exceeds
  · rw [gath] at fits meet
    obtain ⟨len, off, hlen, hoff⟩ := handle_written_of_gathFails meet
    rw [check hlen hoff, decide_eq_false_iff_not, Nat.not_lt] at fits
    rw [check hlen hoff, any_meet_eq_rangesMeet] at meet
    exact (rows out cap len off _ hout hcap hlen hoff rfl).2.1 fits (rangesMeet_iff.mp meet)
  · obtain ⟨len, hlen⟩ := exists_written (inv.len_written (by simp [hg]))
    obtain ⟨off, hoff⟩ := exists_written (inv.offset_written (by simp [hg]))
    rw [gath, check hlen hoff, decide_eq_false_iff_not, Nat.not_lt] at fits
    rw [gath, check hlen hoff, any_meet_eq_rangesMeet] at apart
    rw [execDecode_ready (by simp [hg]) hsrc hinlen hz, decodeArm_eq_armGath hg] at ht
    exact armGath_keeps_fault hout hcap hlen hoff fits apart ht

end

/-- Every command takes the fault of its first failed check. -/
theorem exec_answersChecks (i : Instr) (s : State) : AnswersChecks s (preconditionChecks i s) (exec i s) := by
  cases i with
  | createHeader =>
    refine .cons (fun h => createHeader_unwritten ?_) fun h => ?_
    · simpa [Reg.isUnwritten_iff, or_assoc] using h
    simp only [Bool.or_eq_false_iff, Reg.isUnwritten_eq_false_iff] at h
    obtain ⟨⟨⟨buf, hbuf⟩, len, hlen⟩, ver, hver⟩ := h
    rw [createHeader_written hbuf hlen hver, hver]
    exact .cons (fun big => if_pos (of_decide_eq_true big)) fun small =>
      .emitBytes (if_neg (of_decide_eq_false small))
  | createFooter =>
    refine .cons (fun h => createFooter_unwritten (Reg.isUnwritten_iff.mp h)) fun h => ?_
    obtain ⟨buf, hbuf⟩ := Reg.isUnwritten_eq_false_iff.mp h
    exact .emitBytes (createFooter_written hbuf)
  | addQid =>
    refine .cons (fun h => addQid_unwritten ?_) fun h => ?_
    · simpa [Reg.isUnwritten_iff] using h
    simp only [Bool.or_eq_false_iff, Reg.isUnwritten_eq_false_iff] at h
    obtain ⟨⟨buf, hbuf⟩, qid, hqid⟩ := h
    exact .emitBytes (addQid_written hbuf hqid)
  | initDecoder => exact .nil fun _ t ht => by cases ht; rfl
  | decode =>
    obtain ⟨uninit, unwritten, empty⟩ := decodePrechecksInOrder s
    refine .cons (fun h => uninit (beq_iff_eq.mp h)) fun hu => ?_
    replace hu : s.decoder ≠ .uninit := beq_eq_false_iff_ne.mp hu
    refine .cons (fun h => unwritten hu ?_) fun h => ?_
    · simpa [Reg.isUnwritten_iff] using h
    simp only [Bool.or_eq_false_iff, Reg.isUnwritten_eq_false_iff] at h
    obtain ⟨⟨src, hsrc⟩, inlen, hinlen⟩ := h
    refine .cons (fun zero => empty hu (by simp [hsrc]) ?_) fun hz => ?_
    · rw [hinlen] at zero ⊢
      exact congrArg _ (beq_iff_eq.mp zero)
    rw [hinlen] at hz
    replace hz : inlen ≠ 0 := beq_eq_false_iff_ne.mp hz
    by_cases hg : s.decoder = .gath
    · exact execDecode_gath_answersChecks hsrc hinlen hz hg
    · exact execDecode_byte_answersChecks hsrc hinlen hz hu hg

/-- Settles O41: the commands make their checks in the order of R144's list, and past them no fault is left to take. -/
theorem firstFailedCheckIsReported : Obligations.FirstFailedCheckIsReported := exec_answersChecks

end Sys2Proof.Machine
end
